-- ==== Sys2Proof/Word.lean ====
section
/-! DEFINITION. The 32-bit word, the register and lane numbers, and a complex value as a pair of words
(00_scope.md R7, R8, R9). -/

namespace Sys2Proof

/-- A 32-bit pattern: a real of R8, a command word, or a word on the host port. -/
abbrev Word := BitVec 32

/-- The number of a packed register, P0 to P15 (R9). -/
abbrev Reg := Fin 16

/-- The number of a scalar register, S0 to S3 (R9). -/
abbrev SReg := Fin 4

/-- The number of a lane of a packed register, 0 to 7 (R9). -/
abbrev LaneIx := Fin 8

/-- The number k of one of the four complex values a packed register holds, 0 to 3 (R9). -/
abbrev InstIx := Fin 4

/-- A complex value: a pair of reals (R8). -/
structure Cplx where
  re : Word
  im : Word
  deriving DecidableEq, Repr

end Sys2Proof
end

