-- ==== Sys2Proof/Syntax.lean ====
section
/-! DEFINITION. The commands of CMIE-2x2 as syntax: eight operations at three widths, one constructor per row of
spec/opcode_table.json (30_encoding.md R63, R66), and the four ways a command word is rejected (60_exceptions.md R130). -/

namespace Sys2Proof

/-- The width W of a command (30_encoding.md R64). -/
inductive Width where
  | w1 | w2 | w4
  deriving DecidableEq, Repr

/-- How many complex values a command of this width processes: 1, 2 or 4 (R64). -/
def Width.count : Width → Nat
  | .w1 => 1
  | .w2 => 2
  | .w4 => 4

/-- The eight operations (R66). -/
inductive Op where
  | cadd | csub | cmul | cdiv | pack | unpack | zf | mmse
  deriving DecidableEq, Repr

/-- The commands. Operands as R63 names them: `rd` the destination (or the first register of its group), `ra` and `rb`
the sources (or the first register of their groups), `sg` the scalar register of g, `sn` that of n0. -/
inductive Instr where
  | caddW1 (rd ra rb : Reg)
  | caddW2 (rd ra rb : Reg)
  | caddW4 (rd ra rb : Reg)
  | csubW1 (rd ra rb : Reg)
  | csubW2 (rd ra rb : Reg)
  | csubW4 (rd ra rb : Reg)
  | cmulW1 (rd ra rb : Reg)
  | cmulW2 (rd ra rb : Reg)
  | cmulW4 (rd ra rb : Reg)
  | cdivW1 (rd ra rb : Reg)
  | cdivW2 (rd ra rb : Reg)
  | cdivW4 (rd ra rb : Reg)
  | packW1 (rd ra : Reg)
  | packW2 (rd ra : Reg)
  | packW4 (rd ra : Reg)
  | unpackW1 (rd ra : Reg)
  | unpackW2 (rd ra : Reg)
  | unpackW4 (rd ra : Reg)
  | zfW1 (rd ra rb : Reg) (sg : SReg)
  | zfW2 (rd ra rb : Reg) (sg : SReg)
  | zfW4 (rd ra rb : Reg) (sg : SReg)
  | mmseW1 (rd ra rb : Reg) (sg sn : SReg)
  | mmseW2 (rd ra rb : Reg) (sg sn : SReg)
  | mmseW4 (rd ra rb : Reg) (sg sn : SReg)
  deriving DecidableEq, Repr

/-- `CADD.Ww Pd, Pa, Pb` (R72). -/
def Instr.cadd (w : Width) (rd ra rb : Reg) : Instr :=
  match w with
  | .w1 => .caddW1 rd ra rb
  | .w2 => .caddW2 rd ra rb
  | .w4 => .caddW4 rd ra rb

/-- `CSUB.Ww Pd, Pa, Pb` (R72). -/
def Instr.csub (w : Width) (rd ra rb : Reg) : Instr :=
  match w with
  | .w1 => .csubW1 rd ra rb
  | .w2 => .csubW2 rd ra rb
  | .w4 => .csubW4 rd ra rb

/-- `CMUL.Ww Pd, Pa, Pb` (R72). -/
def Instr.cmul (w : Width) (rd ra rb : Reg) : Instr :=
  match w with
  | .w1 => .cmulW1 rd ra rb
  | .w2 => .cmulW2 rd ra rb
  | .w4 => .cmulW4 rd ra rb

/-- `CDIV.Ww Pd, Pa, Pb` (R72). -/
def Instr.cdiv (w : Width) (rd ra rb : Reg) : Instr :=
  match w with
  | .w1 => .cdivW1 rd ra rb
  | .w2 => .cdivW2 rd ra rb
  | .w4 => .cdivW4 rd ra rb

/-- `PACK.Ww Pd, Pa` (R72). -/
def Instr.pack (w : Width) (rd ra : Reg) : Instr :=
  match w with
  | .w1 => .packW1 rd ra
  | .w2 => .packW2 rd ra
  | .w4 => .packW4 rd ra

/-- `UNPACK.Ww Pd, Pa` (R72). -/
def Instr.unpack (w : Width) (rd ra : Reg) : Instr :=
  match w with
  | .w1 => .unpackW1 rd ra
  | .w2 => .unpackW2 rd ra
  | .w4 => .unpackW4 rd ra

/-- `ZF.Ww Pd, Pa, Pb, Sg` (R72). -/
def Instr.zf (w : Width) (rd ra rb : Reg) (sg : SReg) : Instr :=
  match w with
  | .w1 => .zfW1 rd ra rb sg
  | .w2 => .zfW2 rd ra rb sg
  | .w4 => .zfW4 rd ra rb sg

/-- `MMSE.Ww Pd, Pa, Pb, Sg, Sn` (R72). -/
def Instr.mmse (w : Width) (rd ra rb : Reg) (sg sn : SReg) : Instr :=
  match w with
  | .w1 => .mmseW1 rd ra rb sg sn
  | .w2 => .mmseW2 rd ra rb sg sn
  | .w4 => .mmseW4 rd ra rb sg sn

/-- Why a command word is rejected, by the names of 60_exceptions.md R130. -/
inductive Reject where
  /-- Code 1: `op` is 0x0, 0x7 or 0xA to 0xF. -/
  | illegalOpcode
  /-- Code 2: `wc` = 3 with a legal `op`. -/
  | illegalWidth
  /-- Code 3: `z`, or a field the operation does not use, is not zero. -/
  | reservedNonzero
  /-- Code 4: a register group would pass P15. -/
  | regRange
  deriving DecidableEq, Repr

end Sys2Proof
end

