-- ==== Sys2Proof/WellFormed.lean ====
section
/-! DEFINITION. Which commands are well formed: every register group they name ends at or before P15
(30_encoding.md R68). Every other condition of decoding is met by the syntax itself. -/

namespace Sys2Proof

/-- A group of `n` consecutive packed registers that starts at `r` ends at or before P15 (R63, R68). -/
abbrev GroupFits (r : Reg) (n : Nat) : Prop := r.val + (n - 1) ≤ 15

/-- The conditions of R68 on a solver command: two destinations, four coefficients, two received samples. -/
abbrev SolverFits (rd ra rb : Reg) : Prop := GroupFits rd 2 ∧ GroupFits ra 4 ∧ GroupFits rb 2

/-- The command passes the register-range check of R68. -/
def Instr.wf : Instr → Bool
  | .caddW1 _ _ _ | .caddW2 _ _ _ | .caddW4 _ _ _ => true
  | .csubW1 _ _ _ | .csubW2 _ _ _ | .csubW4 _ _ _ => true
  | .cmulW1 _ _ _ | .cmulW2 _ _ _ | .cmulW4 _ _ _ => true
  | .cdivW1 _ _ _ | .cdivW2 _ _ _ | .cdivW4 _ _ _ => true
  | .packW1 _ ra => decide (GroupFits ra 1)
  | .packW2 _ ra => decide (GroupFits ra 2)
  | .packW4 _ ra => decide (GroupFits ra 4)
  | .unpackW1 rd _ => decide (GroupFits rd 1)
  | .unpackW2 rd _ => decide (GroupFits rd 2)
  | .unpackW4 rd _ => decide (GroupFits rd 4)
  | .zfW1 rd ra rb _ | .zfW2 rd ra rb _ | .zfW4 rd ra rb _ => decide (SolverFits rd ra rb)
  | .mmseW1 rd ra rb _ _ | .mmseW2 rd ra rb _ _ | .mmseW4 rd ra rb _ _ => decide (SolverFits rd ra rb)

end Sys2Proof
end

