-- ==== Sys2Proof/Decode.lean ====
section
/-! DEFINITION. Decoding a 32-bit command word, with the priority of the rejections (30_encoding.md R62, R64, R66 to R69),
and the encoder, written from the same tables. -/

namespace Sys2Proof

/-! ## The fields of a command word (R62) -/

/-- `op`, bits 31:28. -/
def opField (w : Word) : BitVec 4 := w.extractLsb' 28 4

/-- `wc`, bits 27:26. -/
def wcField (w : Word) : BitVec 2 := w.extractLsb' 26 2

/-- `rd`, bits 25:22. -/
def rdField (w : Word) : BitVec 4 := w.extractLsb' 22 4

/-- `ra`, bits 21:18. -/
def raField (w : Word) : BitVec 4 := w.extractLsb' 18 4

/-- `rb`, bits 17:14. -/
def rbField (w : Word) : BitVec 4 := w.extractLsb' 14 4

/-- `sg`, bits 13:12. -/
def sgField (w : Word) : BitVec 2 := w.extractLsb' 12 2

/-- `sn`, bits 11:10. -/
def snField (w : Word) : BitVec 2 := w.extractLsb' 10 2

/-- `z`, bits 9:0. -/
def zField (w : Word) : BitVec 10 := w.extractLsb' 0 10

/-! ## The two code tables -/

/-- The opcode map of R66: the operation an `op` value names, none where the value is reserved. -/
def opOfField (b : BitVec 4) : Option Op :=
  match b.toNat with
  | 0x1 => some .cadd
  | 0x2 => some .csub
  | 0x3 => some .cmul
  | 0x4 => some .cdiv
  | 0x5 => some .pack
  | 0x6 => some .unpack
  | 0x8 => some .zf
  | 0x9 => some .mmse
  | _ => none

/-- The width a `wc` value names, none for the reserved value 3 (R64). -/
def widthOfField (b : BitVec 2) : Option Width :=
  match b.toNat with
  | 0 => some .w1
  | 1 => some .w2
  | 2 => some .w4
  | _ => none

/-- The `op` value of an operation (R66). -/
def opCode : Op → BitVec 4
  | .cadd => 0x1
  | .csub => 0x2
  | .cmul => 0x3
  | .cdiv => 0x4
  | .pack => 0x5
  | .unpack => 0x6
  | .zf => 0x8
  | .mmse => 0x9

/-- The `wc` value of a width (R64). -/
def widthCode : Width → BitVec 2
  | .w1 => 0
  | .w2 => 1
  | .w4 => 2

/-! ## The checks of R69, in its order -/

/-- RESERVED_NONZERO: `z`, or a field the operation does not use, is not zero (R67). -/
def reservedFails (op : Op) (w : Word) : Bool :=
  zField w != 0 ||
    match op with
    | .cadd | .csub | .cmul | .cdiv => sgField w != 0 || snField w != 0
    | .pack | .unpack => rbField w != 0 || sgField w != 0 || snField w != 0
    | .zf => snField w != 0
    | .mmse => false

/-- REG_RANGE: a register group would pass P15; the sums are of zero-extended fields and do not wrap (R68). -/
def rangeFails (op : Op) (wd : Width) (w : Word) : Bool :=
  match op with
  | .cadd | .csub | .cmul | .cdiv => false
  | .pack => decide ((raField w).toNat + wd.count - 1 > 15)
  | .unpack => decide ((rdField w).toNat + wd.count - 1 > 15)
  | .zf | .mmse =>
    decide ((rdField w).toNat + 1 > 15) || decide ((raField w).toNat + 3 > 15) ||
      decide ((rbField w).toNat + 1 > 15)

/-- The command of an operation and a width with the register fields of a word (R63). -/
def assemble (op : Op) (wd : Width) (w : Word) : Instr :=
  let rd := (rdField w).toFin
  let ra := (raField w).toFin
  let rb := (rbField w).toFin
  let sg := (sgField w).toFin
  let sn := (snField w).toFin
  match op with
  | .cadd => .cadd wd rd ra rb
  | .csub => .csub wd rd ra rb
  | .cmul => .cmul wd rd ra rb
  | .cdiv => .cdiv wd rd ra rb
  | .pack => .pack wd rd ra
  | .unpack => .unpack wd rd ra
  | .zf => .zf wd rd ra rb sg
  | .mmse => .mmse wd rd ra rb sg sn

/-- Decoding, with the priority opcode, width, reserved fields, register range (R69). -/
def decode (w : Word) : Except Reject Instr :=
  match opOfField (opField w) with
  | none => .error .illegalOpcode
  | some op =>
    match widthOfField (wcField w) with
    | none => .error .illegalWidth
    | some wd =>
      if reservedFails op w then .error .reservedNonzero
      else if rangeFails op wd w then .error .regRange
      else .ok (assemble op wd w)

/-- What the decoder reads from an instruction of `nbits` bits numbered as spec/opcode_table.json numbers them: a command
is one 32-bit word (R62), so bits above the low `nbits` are zero and a value that needs more than 32 bits is no command. -/
def decodeTableWord (nbits w : Nat) : Option Instr :=
  let v := w % 2 ^ nbits
  if v < 2 ^ 32 then
    match decode (BitVec.ofNat 32 v) with
    | .ok i => some i
    | .error _ => none
  else none

/-! ## The encoder -/

/-- The eight fields of R62 put together, `op` in the high bits; `z` is zero (R67). -/
def encodeFields (op : Op) (wd : Width) (rd ra rb : Reg) (sg sn : SReg) : Word :=
  opCode op ++ widthCode wd ++ BitVec.ofFin (w := 4) rd ++ BitVec.ofFin (w := 4) ra ++ BitVec.ofFin (w := 4) rb ++
    BitVec.ofFin (w := 2) sg ++ BitVec.ofFin (w := 2) sn ++ 0#10

/-- The word of a command; a field the operation does not use is zero (R63, R67). -/
def encode : Instr → Word
  | .caddW1 rd ra rb => encodeFields .cadd .w1 rd ra rb 0 0
  | .caddW2 rd ra rb => encodeFields .cadd .w2 rd ra rb 0 0
  | .caddW4 rd ra rb => encodeFields .cadd .w4 rd ra rb 0 0
  | .csubW1 rd ra rb => encodeFields .csub .w1 rd ra rb 0 0
  | .csubW2 rd ra rb => encodeFields .csub .w2 rd ra rb 0 0
  | .csubW4 rd ra rb => encodeFields .csub .w4 rd ra rb 0 0
  | .cmulW1 rd ra rb => encodeFields .cmul .w1 rd ra rb 0 0
  | .cmulW2 rd ra rb => encodeFields .cmul .w2 rd ra rb 0 0
  | .cmulW4 rd ra rb => encodeFields .cmul .w4 rd ra rb 0 0
  | .cdivW1 rd ra rb => encodeFields .cdiv .w1 rd ra rb 0 0
  | .cdivW2 rd ra rb => encodeFields .cdiv .w2 rd ra rb 0 0
  | .cdivW4 rd ra rb => encodeFields .cdiv .w4 rd ra rb 0 0
  | .packW1 rd ra => encodeFields .pack .w1 rd ra 0 0 0
  | .packW2 rd ra => encodeFields .pack .w2 rd ra 0 0 0
  | .packW4 rd ra => encodeFields .pack .w4 rd ra 0 0 0
  | .unpackW1 rd ra => encodeFields .unpack .w1 rd ra 0 0 0
  | .unpackW2 rd ra => encodeFields .unpack .w2 rd ra 0 0 0
  | .unpackW4 rd ra => encodeFields .unpack .w4 rd ra 0 0 0
  | .zfW1 rd ra rb sg => encodeFields .zf .w1 rd ra rb sg 0
  | .zfW2 rd ra rb sg => encodeFields .zf .w2 rd ra rb sg 0
  | .zfW4 rd ra rb sg => encodeFields .zf .w4 rd ra rb sg 0
  | .mmseW1 rd ra rb sg sn => encodeFields .mmse .w1 rd ra rb sg sn
  | .mmseW2 rd ra rb sg sn => encodeFields .mmse .w2 rd ra rb sg sn
  | .mmseW4 rd ra rb sg sn => encodeFields .mmse .w4 rd ra rb sg sn

end Sys2Proof
end

