-- ==== Sys2Proof/Config.lean ====
section
/-! DEFINITION. What the spec leaves open as a value: the free words (log 6). The two open parameters of
92_eei_decisions.md, HOST_BYTE_ORDER and CMD_LATENCY, are read by no rule and stand nowhere in the model (log 12). -/

namespace Sys2Proof

/-- The n-th free word drawn by the machine: an unspecified 32-bit pattern (10_state.md R33 after a reset during a run,
20_memory.md R44 the word returned with ERR). It has no body on purpose: nothing can be proved of its value, so what is
proved holds for every value (log 6). -/
opaque Config.freeWord : Nat → Word

end Sys2Proof
end

