-- ==== Sys2Proof/Machine/Binary32.lean ====
section
/-! DEFINITION. The real lane format and the five real primitives (40_complex_arith.md R80 to R86). A finite pattern is an
integer number of units of 2^-149 (R80: the smallest subnormal), so sums are exact integers, products and quotients exact
fractions, and each operation rounds once (R81(a)). -/

namespace Sys2Proof.Machine

/-! ## The format (R80) -/

/-- The sign bit, bit 31 (R7, R80). -/
def signBit (a : Word) : Bool := a.getLsbD 31

/-- The biased exponent `e`, bits 30:23 (R7, R80). -/
def expField (a : Word) : Nat := (a.extractLsb' 23 8).toNat

/-- The fraction `f`, bits 22:0 (R7, R80). -/
def fracField (a : Word) : Nat := (a.extractLsb' 0 23).toNat

/-- A NaN of any pattern, quiet and signalling alike: `e` = 255 and `f` not 0 (R80). -/
def isNaN (a : Word) : Bool := expField a == 255 && fracField a != 0

/-- An infinity: `e` = 255 and `f` = 0 (R80). -/
def isInf (a : Word) : Bool := expField a == 255 && fracField a == 0

/-- A zero of either sign: `e` = 0 and `f` = 0 (R80). -/
def isZero (a : Word) : Bool := expField a == 0 && fracField a == 0

/-- Zero, subnormal or normal (R80). -/
def isFinite (a : Word) : Bool := expField a != 255

/-- The magnitude of a finite pattern in units of 2^-149: `f` for a zero or a subnormal, (2^23 + f) · 2^(e-1) for a
normal, which is R80's value times 2^149. -/
def magUnits (a : Word) : Nat :=
  if expField a = 0 then fracField a else (2 ^ 23 + fracField a) * 2 ^ (expField a - 1)

/-- The signed value of a finite pattern in units of 2^-149 (R80). -/
def units (a : Word) : Int :=
  if signBit a then -(magUnits a : Int) else (magUnits a : Int)

/-- The one NaN that arithmetic produces (00_scope.md R10, R81(c)). -/
def cnan : Word := 0x7FC00000

/-- +0.0 (00_scope.md R10). -/
def pzero : Word := 0x00000000

/-- -0.0 (R82). -/
def nzero : Word := 0x80000000

/-- The pattern with this sign bit and this 31-bit magnitude pattern (`e` and `f` read as one number). -/
def withSign (sg : Bool) (mag : Nat) : Word :=
  BitVec.ofNat 32 ((if sg then 2 ^ 31 else 0) + mag)

/-- The zero of a sign. -/
def signedZero (sg : Bool) : Word := withSign sg 0

/-- The magnitude pattern of an infinity (R80: `e` = 255, `f` = 0). -/
def infMag : Nat := 0x7F800000

/-- The infinity of a sign. -/
def signedInf (sg : Bool) : Word := withSign sg infMag

/-! ## Rounding (R81(a)) -/

/-- The integer nearest to the fraction n/d, and of two equally near ones the even one. -/
def nearestEven (n d : Nat) : Nat :=
  let q := n / d
  let r := n % d
  if 2 * r > d || (2 * r == d && q % 2 == 1) then q + 1 else q

/-- roundTiesToEven of the magnitude n/d units of 2^-149, as a 31-bit magnitude pattern (R81(a)). With `k` the number of
bits by which the integer part of n/d passes 24 bits, the representable neighbours are multiples of 2^k units, and
m · 2^k units (m at most 2^24) has the pattern k · 2^23 + m: for k = 0 the subnormal grid and the first normal binade,
otherwise exponent field k + 1; m = 2^24 carries into the exponent as it should. A magnitude that rounds past the largest
finite value has a pattern of at least that of infinity, and is infinity. -/
def roundMag (n d : Nat) : Nat :=
  let k := Nat.log2 (n / d) - 23
  min (k * 2 ^ 23 + nearestEven n (d * 2 ^ k)) infMag

/-- The exact value with sign `sg` and magnitude n/d units of 2^-149, rounded once to binary32 (R81(a)). -/
def roundReal (sg : Bool) (n d : Nat) : Word := withSign sg (roundMag n d)

/-! ## The primitives -/

/-- Negation: bit 31 inverted, for every pattern (R86). -/
def fneg (a : Word) : Word := a ^^^ 0x80000000

/-- Addition, the cases in the order of R82. -/
def fadd (a b : Word) : Word :=
  if isNaN a || isNaN b then cnan
  else if isInf a && isInf b && signBit a != signBit b then cnan
  else if isInf a then a
  else if isInf b then b
  else if isZero a && isZero b then (if signBit a && signBit b then nzero else pzero)
  else if units a + units b = 0 then pzero
  else roundReal (decide (units a + units b < 0)) (units a + units b).natAbs 1

/-- Subtraction (R83). -/
def fsub (a b : Word) : Word :=
  if isNaN a || isNaN b then cnan else fadd a (fneg b)

/-- Multiplication, the cases in the order of R84. The product of two magnitudes in units of 2^-149 is in units of 2^-298,
hence the denominator. -/
def fmul (a b : Word) : Word :=
  let sg := signBit a ^^ signBit b
  if isNaN a || isNaN b then cnan
  else if (isInf a && isZero b) || (isZero a && isInf b) then cnan
  else if isInf a || isInf b then signedInf sg
  else if isZero a || isZero b then signedZero sg
  else roundReal sg (magUnits a * magUnits b) (2 ^ 149)

/-- Division, the cases in the order of R85. The quotient of two magnitudes is a plain number, hence the factor 2^149. -/
def fdiv (a b : Word) : Word :=
  let sg := signBit a ^^ signBit b
  if isNaN a || isNaN b then cnan
  else if isInf a && isInf b then cnan
  else if isZero a && isZero b then cnan
  else if isInf a then signedInf sg
  else if isInf b then signedZero sg
  else if isZero b then signedInf sg
  else if isZero a then signedZero sg
  else roundReal sg (magUnits a * 2 ^ 149) (magUnits b)

end Sys2Proof.Machine
end

