-- ==== Sys2Proof/Machine/Complex.lean ====
section
/-! DEFINITION. The complex helper functions (40_complex_arith.md R88 to R94) and the two solver stages
(42_zf_solver.md R110, 43_mmse_solver.md R120). The order of the real operations is the one the rules write. -/

namespace Sys2Proof.Machine

/-- Componentwise addition (R88). -/
def cadd (a b : Cplx) : Cplx := ⟨fadd a.re b.re, fadd a.im b.im⟩

/-- Componentwise subtraction (R89). -/
def csub (a b : Cplx) : Cplx := ⟨fsub a.re b.re, fsub a.im b.im⟩

/-- Multiplication: four products, one difference, one sum (R90). -/
def cmul (a b : Cplx) : Cplx :=
  ⟨fsub (fmul a.re b.re) (fmul a.im b.im), fadd (fmul a.re b.im) (fmul a.im b.re)⟩

/-- The squared magnitude (R94). -/
def norm2 (a : Cplx) : Word := fadd (fmul a.re a.re) (fmul a.im a.im)

/-- Division of `a` by `b`: both numerators divided by c² + d², no scaling and no test of the divisor (R91). -/
def cdiv (a b : Cplx) : Cplx :=
  let den := fadd (fmul b.re b.re) (fmul b.im b.im)
  let nre := fadd (fmul a.re b.re) (fmul a.im b.im)
  let nim := fsub (fmul a.im b.re) (fmul a.re b.im)
  ⟨fdiv nre den, fdiv nim den⟩

/-- The conjugate, exact (R92). -/
def cconj (a : Cplx) : Cplx := ⟨a.re, fneg a.im⟩

/-- Both parts times a real (R93). -/
def cscale (a : Cplx) (g : Word) : Cplx := ⟨fmul a.re g, fmul a.im g⟩

/-- The determinant as the solver core computes it (R110). -/
def zfdet (h00 h01 h10 h11 : Cplx) : Cplx := csub (cmul h00 h11) (cmul h01 h10)

/-- The solver core: exact cofactor inversion, the quotient first and g last (R110). -/
def zfcore (h00 h01 h10 h11 y0 y1 : Cplx) (g : Word) : Cplx × Cplx :=
  let det := zfdet h00 h01 h10 h11
  let n0 := csub (cmul h11 y0) (cmul h01 y1)
  let n1 := csub (cmul h00 y1) (cmul h10 y0)
  (cscale (cdiv n0 det) g, cscale (cdiv n1 det) g)

/-- What the Gram and matched-filter stage hands to the solver core. -/
structure GramSystem where
  a00 : Cplx
  a01 : Cplx
  a10 : Cplx
  a11 : Cplx
  z0 : Cplx
  z1 : Cplx
  deriving DecidableEq, Repr

/-- The Gram and matched-filter stage: A = Hᴴ·H + n0·I and z = Hᴴ·y, the diagonal on the real path with n0 added last, a10
the conjugate of a01 (R120). DESIGN CHOICE (log 16): where R120's pseudocode and R125(e) differ on the imaginary part of a01
for a real H (R125(e) says +0; the pseudocode gives -0 where h00 and h10 carry a minus sign and h01 and h11 do not, and a NaN
where a part of H is infinite or a NaN), the pseudocode is followed. -/
def mmseprep (h00 h01 h10 h11 y0 y1 : Cplx) (n0 : Word) : GramSystem :=
  let d0 := fadd (fadd (norm2 h00) (norm2 h10)) n0
  let d1 := fadd (fadd (norm2 h01) (norm2 h11)) n0
  let a01 := cadd (cmul (cconj h00) h01) (cmul (cconj h10) h11)
  { a00 := ⟨d0, pzero⟩
    a01 := a01
    a10 := cconj a01
    a11 := ⟨d1, pzero⟩
    z0 := cadd (cmul (cconj h00) y0) (cmul (cconj h10) y1)
    z1 := cadd (cmul (cconj h01) y0) (cmul (cconj h11) y1) }

/-- The MMSE solve of one problem: the Gram stage, then the same solver core as ZF (R121). -/
def mmsecore (h00 h01 h10 h11 y0 y1 : Cplx) (g n0 : Word) : Cplx × Cplx :=
  let m := mmseprep h00 h01 h10 h11 y0 y1 n0
  zfcore m.a00 m.a01 m.a10 m.a11 m.z0 m.z1 g

end Sys2Proof.Machine
end

