-- ==== Sys2Proof/Machine/State.lean ====
section
/-! DEFINITION. The state of one engine: the packed file P and the scalar file S (10_state.md R20), and beside them the
host's side of the port, which the spec calls inputs and outputs of a step (00_scope.md R16, 70_reset_and_hazards.md R159). -/

namespace Sys2Proof.Machine

/-- The status of a register transaction (20_memory.md R44 to R46). -/
inductive Status where
  | ok
  | err
  deriving DecidableEq, Repr

/-- What the host presents at the port, and the reset (00_scope.md R17, 70_reset_and_hazards.md R150). -/
inductive HostEvent where
  /-- `RegRead(a)` of a word address (20_memory.md R44). -/
  | regRead (a : BitVec 8)
  /-- `RegWrite(a, v)` to a word address (20_memory.md R45). -/
  | regWrite (a : BitVec 8) (v : Word)
  /-- `Cmd(w)` (30_encoding.md R60). -/
  | cmd (w : Word)
  /-- The reset is asserted and released again; `inFlight` is the command word it abandons, if one was in flight
  (70_reset_and_hazards.md R150, R151; log 2). -/
  | reset (inFlight : Option Word)
  deriving DecidableEq, Repr

/-- What a transaction returns to the host. -/
inductive Reply where
  /-- A `RegRead` returns a status and a word (20_memory.md R44). -/
  | read (status : Status) (word : Word)
  /-- A `RegWrite` returns a status (20_memory.md R45). -/
  | write (status : Status)
  /-- A `Cmd` returns a 3-bit completion code (60_exceptions.md R130). -/
  | completion (code : BitVec 3)
  deriving DecidableEq, Repr

/-- A packed register: eight lanes (10_state.md R22). -/
abbrev PackedReg := Vector Word 8

/-- The state of one engine and of its port. -/
structure State where
  /-- The packed register file: 16 registers of 8 lanes of 32 bits (10_state.md R20, R22). -/
  p : Vector PackedReg 16
  /-- The scalar register file: 4 registers of 32 bits (10_state.md R20, R27). -/
  s : Vector Word 4
  /-- The model's own: what the host still has to present, in its order (20_memory.md R51; log 3). -/
  pending : List HostEvent
  /-- The model's own: what the transactions returned, the oldest first (70_reset_and_hazards.md R159; log 4). -/
  replies : List Reply
  /-- The model's own: how many free words have been drawn (log 6). -/
  freeCount : Nat
  deriving DecidableEq, Repr

/-- The engine has no fault: no command, no data value and no transaction stops it (60_exceptions.md R131, R132, R136,
70_reset_and_hazards.md R158), so the type has no constructor. Safe: nothing is hidden behind it. -/
inductive Fault where
  deriving DecidableEq, Repr

/-- The reasons for which a step has no meaning. -/
inductive Refusal where
  /-- Raised by an arm of `exec` whose instruction has no meaning yet; no arm raises it. Safe: a run that meets it stops. -/
  | notModelled (mnemonic : String)
  deriving DecidableEq, Repr

/-- The machine right after reset: idle, nothing presented, nothing returned (10_state.md R33, 70_reset_and_hazards.md R150).
DESIGN CHOICE (log 1, unsafe): every lane and every scalar, which the spec leaves unspecified, is zero. DESIGN CHOICE
(logs 3, 4, 6): the model's own fields start empty and at zero. -/
def State.reset : State where
  p := Vector.replicate 16 (Vector.replicate 8 0)
  s := Vector.replicate 4 0
  pending := []
  replies := []
  freeCount := 0

/-- What a step of this machine answers. -/
abbrev StepOutcome := Host.Outcome State Fault Refusal

end Sys2Proof.Machine
end

