-- ==== Sys2Proof/Machine/Flags.lean ====
section
/-! DEFINITION. The machine has no flags, condition codes or predicates (10_state.md R29); what stands in their place is what
a transaction reports: the completion codes of 60_exceptions.md R130 and the replies that carry them. -/

namespace Sys2Proof.Machine

/-- The completion code of an executed command: OK (R130). -/
def okCode : BitVec 3 := 0

/-- The completion code of a rejection (R130). -/
def rejectCode : Reject → BitVec 3
  | .illegalOpcode => 1
  | .illegalWidth => 2
  | .reservedNonzero => 3
  | .regRange => 4

end Sys2Proof.Machine
end

