-- ==== Sys2Proof/Machine/Operands.lean ====
section
/-! DEFINITION. The operand forms of a command (30_encoding.md R63): a packed register, a group of consecutive packed
registers, a scalar register, and the two lanes of instance k in a packed register (00_scope.md R9, 10_state.md R23). There
are no immediates (30_encoding.md R65). -/

namespace Sys2Proof.Machine

/-- Register `r + k`, the k-th of the group that starts at `r` (R63). Past P15 the number wraps; no command uses it there,
since its range check comes first (R68, log 7). -/
def groupReg (r : Reg) (k : Nat) : Reg := ⟨(r.val + k) % 16, Nat.mod_lt _ (by decide)⟩

/-- The group of `n` registers that starts at `r` does not pass P15: r + n - 1 ≤ 15 (R68). -/
def groupOk (r : Reg) (n : Nat) : Bool := decide (r.val + n - 1 ≤ 15)

/-- The range check of a solver command: rd + 1, ra + 3 and rb + 1 do not pass P15 (R68). -/
def solverOk (rd ra rb : Reg) : Bool := groupOk rd 2 && groupOk ra 4 && groupOk rb 2

/-- The lane of the real part of instance k: 2k (R9, R23). -/
def reLane (k : InstIx) : LaneIx := ⟨2 * k.val, by omega⟩

/-- The lane of the imaginary part of instance k: 2k + 1 (R9, R23). -/
def imLane (k : InstIx) : LaneIx := ⟨2 * k.val + 1, by omega⟩

/-- The instances 0 to W - 1 that a command of width W processes, in order (R64). -/
def instances : Width → List InstIx
  | .w1 => [0]
  | .w2 => [0, 1]
  | .w4 => [0, 1, 2, 3]

end Sys2Proof.Machine
end

