-- ==== Sys2Proof/Machine/Ops.lean ====
section
/-! DEFINITION. The named operations every meaning is written over: reading and writing lanes, complex values and scalars,
writing the results of a command, answering the host, completing and rejecting a command, and the address map of the port. -/

namespace Sys2Proof.Machine

/-! ## Registers (00_scope.md R9) -/

/-- `P[r].lane[l]` (R9). -/
def State.lane (s : State) (r : Reg) (l : LaneIx) : Word := (s.p[r.val])[l.val]

/-- `P[r].lane[l] <- v`: a lane is written as a whole (10_state.md R22). -/
def State.setLane (s : State) (r : Reg) (l : LaneIx) (v : Word) : State :=
  { s with p := s.p.set r.val ((s.p[r.val]).set l.val v) }

/-- `S[i]` (R9). -/
def State.scalar (s : State) (i : SReg) : Word := s.s[i.val]

/-- `S[i] <- v` (R9). -/
def State.setScalar (s : State) (i : SReg) (v : Word) : State := { s with s := s.s.set i.val v }

/-- `P[r].c[k]`: lanes 2k and 2k + 1 (R9). -/
def State.c (s : State) (r : Reg) (k : InstIx) : Cplx := ⟨s.lane r (reLane k), s.lane r (imLane k)⟩

/-- `P[r].c[k] <- v` (R9). -/
def State.setC (s : State) (r : Reg) (k : InstIx) (v : Cplx) : State :=
  (s.setLane r (reLane k) v.re).setLane r (imLane k) v.im

/-! ## Results of a command -/

/-- One complex result and where it goes: `P[reg].c[inst] <- val`. -/
structure CWrite where
  reg : Reg
  inst : InstIx
  val : Cplx
  deriving DecidableEq, Repr

/-- The writes of a command, in order. Every `val` was computed from the state before the command, so all sources are read
before any destination is written (10_state.md R25). -/
def State.applyWrites (s : State) : List CWrite → State
  | [] => s
  | w :: ws => (s.setC w.reg w.inst w.val).applyWrites ws

/-! ## Answering the host -/

/-- A transaction returns (70_reset_and_hazards.md R159). -/
def State.answer (s : State) (r : Reply) : State := { s with replies := s.replies ++ [r] }

/-- The command was executed by its rule: its results are written and it returns code 0 (30_encoding.md R60, R69). -/
def State.complete (s : State) (ws : List CWrite) : StepOutcome :=
  .next ((s.applyWrites ws).answer (.completion okCode))

/-- Taking a rejection, the one exception-like event of the machine: the command returns its code, no lane and no scalar is
written, nothing is latched and no control is transferred (60_exceptions.md R131, R136). There is no return from it (R137). -/
def State.reject (s : State) (r : Reject) : StepOutcome :=
  .next (s.answer (.completion (rejectCode r)))

/-! ## The operand shapes shared by the commands -/

/-- The results of a two-operand command: f of instance k of both sources, to instance k of `rd` (40_complex_arith.md R95). -/
def binaryWrites (f : Cplx → Cplx → Cplx) (w : Width) (rd ra rb : Reg) (s : State) : List CWrite :=
  (instances w).map fun k => ⟨rd, k, f (s.c ra k) (s.c rb k)⟩

/-- The results of PACK: `c[0]` of source register k to instance k of `rd` (41_pack_unpack.md R100). -/
def packWrites (w : Width) (rd ra : Reg) (s : State) : List CWrite :=
  (instances w).map fun k => ⟨rd, k, s.c (groupReg ra k.val) 0⟩

/-- The results of UNPACK: instance k of `ra` to `c[0]` of destination register k (41_pack_unpack.md R101). -/
def unpackWrites (w : Width) (rd ra : Reg) (s : State) : List CWrite :=
  (instances w).map fun k => ⟨groupReg rd k.val, 0, s.c ra k⟩

/-- The pair (x0, x1) that ZF computes for instance k (42_zf_solver.md R111). -/
def zfResult (ra rb : Reg) (sg : SReg) (s : State) (k : InstIx) : Cplx × Cplx :=
  zfcore (s.c ra k) (s.c (groupReg ra 1) k) (s.c (groupReg ra 2) k) (s.c (groupReg ra 3) k)
    (s.c rb k) (s.c (groupReg rb 1) k) (s.scalar sg)

/-- The pair (x0, x1) that MMSE computes for instance k (43_mmse_solver.md R121). -/
def mmseResult (ra rb : Reg) (sg sn : SReg) (s : State) (k : InstIx) : Cplx × Cplx :=
  mmsecore (s.c ra k) (s.c (groupReg ra 1) k) (s.c (groupReg ra 2) k) (s.c (groupReg ra 3) k)
    (s.c rb k) (s.c (groupReg rb 1) k) (s.scalar sg) (s.scalar sn)

/-- The results of a solver command: x0 of instance k to instance k of `rd`, x1 to that of the next register (R111, R121). -/
def solverWrites (x : InstIx → Cplx × Cplx) (w : Width) (rd : Reg) : List CWrite :=
  (instances w).map (fun k => ⟨rd, k, (x k).1⟩) ++
    (instances w).map (fun k => ⟨groupReg rd 1, k, (x k).2⟩)

/-! ## The port's address map (20_memory.md R41 to R43) -/

/-- The constant CAP: bits 0, 1, 2 for widths 1, 2, 4 (10_state.md R30). -/
def capWord : Word := 0x00000007

/-- The packed register of a lane address, bits 6:3 (R42). -/
def portReg (a : BitVec 8) : Reg := (a.extractLsb' 3 4).toFin

/-- The lane of a lane address, bits 2:0 (R42). -/
def portLane (a : BitVec 8) : LaneIx := (a.extractLsb' 0 3).toFin

/-- The scalar register of a scalar address, bits 1:0 (R43). -/
def portScalar (a : BitVec 8) : SReg := (a.extractLsb' 0 2).toFin

/-- The word at a word address, none where the map has nothing (R41, R44). -/
def State.portWord (s : State) (a : BitVec 8) : Option Word :=
  if a ≤ 0x7F#8 then some (s.lane (portReg a) (portLane a))
  else if a ≤ 0x83#8 then some (s.scalar (portScalar a))
  else if a = 0x84#8 then some capWord
  else none

/-- The state after a word is stored at a word address, none where a write is refused (R41, R45, R46). -/
def State.setPortWord (s : State) (a : BitVec 8) (v : Word) : Option State :=
  if a ≤ 0x7F#8 then some (s.setLane (portReg a) (portLane a) v)
  else if a ≤ 0x83#8 then some (s.setScalar (portScalar a) v)
  else none

end Sys2Proof.Machine
end

