-- ==== Sys2Proof/Machine/Arith.lean ====
section
/-! DEFINITION. The complex arithmetic commands CADD, CSUB, CMUL, CDIV at widths 1, 2 and 4 (40_complex_arith.md R95 to R98).
No data value rejects: a zero divisor completes with code 0 and writes the value of the datapath (R98). -/

namespace Sys2Proof.Machine

/-- CADD.W1: the sum of instances 0 to 0 of P[ra] and P[rb] (R95). -/
def execCaddW1 (rd ra rb : Reg) (s : State) : StepOutcome :=
  s.complete (binaryWrites cadd .w1 rd ra rb s)

/-- CADD.W2: the sum of instances 0 to 1 of P[ra] and P[rb] (R95). -/
def execCaddW2 (rd ra rb : Reg) (s : State) : StepOutcome :=
  s.complete (binaryWrites cadd .w2 rd ra rb s)

/-- CADD.W4: the sum of instances 0 to 3 of P[ra] and P[rb] (R95). -/
def execCaddW4 (rd ra rb : Reg) (s : State) : StepOutcome :=
  s.complete (binaryWrites cadd .w4 rd ra rb s)

/-- CSUB.W1: the difference, a minus b, of instances 0 to 0 of P[ra] and P[rb] (R96). -/
def execCsubW1 (rd ra rb : Reg) (s : State) : StepOutcome :=
  s.complete (binaryWrites csub .w1 rd ra rb s)

/-- CSUB.W2: the difference, a minus b, of instances 0 to 1 of P[ra] and P[rb] (R96). -/
def execCsubW2 (rd ra rb : Reg) (s : State) : StepOutcome :=
  s.complete (binaryWrites csub .w2 rd ra rb s)

/-- CSUB.W4: the difference, a minus b, of instances 0 to 3 of P[ra] and P[rb] (R96). -/
def execCsubW4 (rd ra rb : Reg) (s : State) : StepOutcome :=
  s.complete (binaryWrites csub .w4 rd ra rb s)

/-- CMUL.W1: the product of instances 0 to 0 of P[ra] and P[rb] (R97). -/
def execCmulW1 (rd ra rb : Reg) (s : State) : StepOutcome :=
  s.complete (binaryWrites cmul .w1 rd ra rb s)

/-- CMUL.W2: the product of instances 0 to 1 of P[ra] and P[rb] (R97). -/
def execCmulW2 (rd ra rb : Reg) (s : State) : StepOutcome :=
  s.complete (binaryWrites cmul .w2 rd ra rb s)

/-- CMUL.W4: the product of instances 0 to 3 of P[ra] and P[rb] (R97). -/
def execCmulW4 (rd ra rb : Reg) (s : State) : StepOutcome :=
  s.complete (binaryWrites cmul .w4 rd ra rb s)

/-- CDIV.W1: the quotient, a divided by b, of instances 0 to 0 of P[ra] and P[rb] (R98). -/
def execCdivW1 (rd ra rb : Reg) (s : State) : StepOutcome :=
  s.complete (binaryWrites cdiv .w1 rd ra rb s)

/-- CDIV.W2: the quotient, a divided by b, of instances 0 to 1 of P[ra] and P[rb] (R98). -/
def execCdivW2 (rd ra rb : Reg) (s : State) : StepOutcome :=
  s.complete (binaryWrites cdiv .w2 rd ra rb s)

/-- CDIV.W4: the quotient, a divided by b, of instances 0 to 3 of P[ra] and P[rb] (R98). -/
def execCdivW4 (rd ra rb : Reg) (s : State) : StepOutcome :=
  s.complete (binaryWrites cdiv .w4 rd ra rb s)

end Sys2Proof.Machine
end

