-- ==== Sys2Proof/Machine/Mmse.lean ====
section
/-! DEFINITION. The MMSE solver at widths 1, 2 and 4 (43_mmse_solver.md R121). The engine validates nothing: every pattern of
n0 goes through the datapath and the command completes with code 0 (R123, R124, logs 8 and 9). -/

namespace Sys2Proof.Machine

/-- MMSE.W1: solves the regularised system of instances 0 to 0 with n0 = S[sn] and scales by g = S[sg] (R121). -/
def execMmseW1 (rd ra rb : Reg) (sg sn : SReg) (s : State) : StepOutcome :=
  if solverOk rd ra rb then s.complete (solverWrites (mmseResult ra rb sg sn s) .w1 rd) else s.reject .regRange

/-- MMSE.W2: solves the regularised system of instances 0 to 1 with n0 = S[sn] and scales by g = S[sg] (R121). -/
def execMmseW2 (rd ra rb : Reg) (sg sn : SReg) (s : State) : StepOutcome :=
  if solverOk rd ra rb then s.complete (solverWrites (mmseResult ra rb sg sn s) .w2 rd) else s.reject .regRange

/-- MMSE.W4: solves the regularised system of instances 0 to 3 with n0 = S[sn] and scales by g = S[sg] (R121). -/
def execMmseW4 (rd ra rb : Reg) (sg sn : SReg) (s : State) : StepOutcome :=
  if solverOk rd ra rb then s.complete (solverWrites (mmseResult ra rb sg sn s) .w4 rd) else s.reject .regRange

end Sys2Proof.Machine
end

