-- ==== Sys2Proof/Machine/PackUnpack.lean ====
section
/-! DEFINITION. PACK and UNPACK at widths 1, 2 and 4 (41_pack_unpack.md R100, R101). Both move bits: they do no arithmetic and
do not canonicalise NaNs. A group that would pass P15 is rejected with code 4 (30_encoding.md R68, log 7). -/

namespace Sys2Proof.Machine

/-- PACK.W1: `c[0]` of P[ra] to P[ra + 0] into instances 0 to 0 of P[rd] (R100). -/
def execPackW1 (rd ra : Reg) (s : State) : StepOutcome :=
  if groupOk ra 1 then s.complete (packWrites .w1 rd ra s) else s.reject .regRange

/-- PACK.W2: `c[0]` of P[ra] to P[ra + 1] into instances 0 to 1 of P[rd] (R100). -/
def execPackW2 (rd ra : Reg) (s : State) : StepOutcome :=
  if groupOk ra 2 then s.complete (packWrites .w2 rd ra s) else s.reject .regRange

/-- PACK.W4: `c[0]` of P[ra] to P[ra + 3] into instances 0 to 3 of P[rd] (R100). -/
def execPackW4 (rd ra : Reg) (s : State) : StepOutcome :=
  if groupOk ra 4 then s.complete (packWrites .w4 rd ra s) else s.reject .regRange

/-- UNPACK.W1: instances 0 to 0 of P[ra] into `c[0]` of P[rd] to P[rd + 0] (R101). -/
def execUnpackW1 (rd ra : Reg) (s : State) : StepOutcome :=
  if groupOk rd 1 then s.complete (unpackWrites .w1 rd ra s) else s.reject .regRange

/-- UNPACK.W2: instances 0 to 1 of P[ra] into `c[0]` of P[rd] to P[rd + 1] (R101). -/
def execUnpackW2 (rd ra : Reg) (s : State) : StepOutcome :=
  if groupOk rd 2 then s.complete (unpackWrites .w2 rd ra s) else s.reject .regRange

/-- UNPACK.W4: instances 0 to 3 of P[ra] into `c[0]` of P[rd] to P[rd + 3] (R101). -/
def execUnpackW4 (rd ra : Reg) (s : State) : StepOutcome :=
  if groupOk rd 4 then s.complete (unpackWrites .w4 rd ra s) else s.reject .regRange

end Sys2Proof.Machine
end

