-- ==== Sys2Proof/Machine/ZeroForcing.lean ====
section
/-! DEFINITION. The zero-forcing solver ZF at widths 1, 2 and 4 (42_zf_solver.md R111). The engine does not test the
determinant: a singular H completes with code 0 and writes the value of the datapath (R113, log 8). -/

namespace Sys2Proof.Machine

/-- ZF.W1: solves instances 0 to 0 and scales by g = S[sg] (R111). -/
def execZfW1 (rd ra rb : Reg) (sg : SReg) (s : State) : StepOutcome :=
  if solverOk rd ra rb then s.complete (solverWrites (zfResult ra rb sg s) .w1 rd) else s.reject .regRange

/-- ZF.W2: solves instances 0 to 1 and scales by g = S[sg] (R111). -/
def execZfW2 (rd ra rb : Reg) (sg : SReg) (s : State) : StepOutcome :=
  if solverOk rd ra rb then s.complete (solverWrites (zfResult ra rb sg s) .w2 rd) else s.reject .regRange

/-- ZF.W4: solves instances 0 to 3 and scales by g = S[sg] (R111). -/
def execZfW4 (rd ra rb : Reg) (sg : SReg) (s : State) : StepOutcome :=
  if solverOk rd ra rb then s.complete (solverWrites (zfResult ra rb sg s) .w4 rd) else s.reject .regRange

end Sys2Proof.Machine
end

