-- ==== Sys2Proof/Machine/Dispatch.lean ====
section
/-! DEFINITION. The dispatch of a command to its meaning, one arm per constructor. -/

namespace Sys2Proof.Machine

def exec (i : Instr) (s : State) : Host.Outcome State Fault Refusal :=
  match i with
  | .caddW1 rd ra rb => Sys2Proof.Machine.execCaddW1 rd ra rb s
  | .caddW2 rd ra rb => Sys2Proof.Machine.execCaddW2 rd ra rb s
  | .caddW4 rd ra rb => Sys2Proof.Machine.execCaddW4 rd ra rb s
  | .csubW1 rd ra rb => Sys2Proof.Machine.execCsubW1 rd ra rb s
  | .csubW2 rd ra rb => Sys2Proof.Machine.execCsubW2 rd ra rb s
  | .csubW4 rd ra rb => Sys2Proof.Machine.execCsubW4 rd ra rb s
  | .cmulW1 rd ra rb => Sys2Proof.Machine.execCmulW1 rd ra rb s
  | .cmulW2 rd ra rb => Sys2Proof.Machine.execCmulW2 rd ra rb s
  | .cmulW4 rd ra rb => Sys2Proof.Machine.execCmulW4 rd ra rb s
  | .cdivW1 rd ra rb => Sys2Proof.Machine.execCdivW1 rd ra rb s
  | .cdivW2 rd ra rb => Sys2Proof.Machine.execCdivW2 rd ra rb s
  | .cdivW4 rd ra rb => Sys2Proof.Machine.execCdivW4 rd ra rb s
  | .packW1 rd ra => Sys2Proof.Machine.execPackW1 rd ra s
  | .packW2 rd ra => Sys2Proof.Machine.execPackW2 rd ra s
  | .packW4 rd ra => Sys2Proof.Machine.execPackW4 rd ra s
  | .unpackW1 rd ra => Sys2Proof.Machine.execUnpackW1 rd ra s
  | .unpackW2 rd ra => Sys2Proof.Machine.execUnpackW2 rd ra s
  | .unpackW4 rd ra => Sys2Proof.Machine.execUnpackW4 rd ra s
  | .zfW1 rd ra rb sg => Sys2Proof.Machine.execZfW1 rd ra rb sg s
  | .zfW2 rd ra rb sg => Sys2Proof.Machine.execZfW2 rd ra rb sg s
  | .zfW4 rd ra rb sg => Sys2Proof.Machine.execZfW4 rd ra rb sg s
  | .mmseW1 rd ra rb sg sn => Sys2Proof.Machine.execMmseW1 rd ra rb sg sn s
  | .mmseW2 rd ra rb sg sn => Sys2Proof.Machine.execMmseW2 rd ra rb sg sn s
  | .mmseW4 rd ra rb sg sn => Sys2Proof.Machine.execMmseW4 rd ra rb sg sn s

end Sys2Proof.Machine
end

