-- ==== Sys2Proof/Machine/Transaction.lean ====
section
/-! DEFINITION. The transactions of the host port and the reset: RegRead, RegWrite (20_memory.md R44 to R46), Cmd
(30_encoding.md R60) and the reset (70_reset_and_hazards.md R150, R151). -/

namespace Sys2Proof.Machine

/-- `RegRead(a)`: no state of the engine changes; at an unmapped address the status is ERR and the word is unspecified, a
free word (20_memory.md R44, R46; log 6). -/
def regRead (a : BitVec 8) (s : State) : State :=
  match s.portWord a with
  | some v => s.answer (.read .ok v)
  | none => ({ s with freeCount := s.freeCount + 1 } : State).answer (.read .err (Config.freeWord s.freeCount))

/-- `RegWrite(a, v)`: the word is stored bit for bit; at CAP and at an unmapped address the status is ERR and nothing is
written (20_memory.md R45, R46). -/
def regWrite (a : BitVec 8) (v : Word) (s : State) : State :=
  match s.setPortWord a v with
  | some t => t.answer (.write .ok)
  | none => s.answer (.write .err)

/-- The reset: every lane and every scalar holds an unspecified pattern afterwards, 128 + 4 free words; a command in flight
returns no code (10_state.md R33, 70_reset_and_hazards.md R150, R151; log 2). -/
def resetPulse (s : State) : State :=
  { s with
    p := Vector.ofFn fun r => Vector.ofFn fun l => Config.freeWord (s.freeCount + (8 * r.val + l.val))
    s := Vector.ofFn fun i => Config.freeWord (s.freeCount + (128 + i.val))
    freeCount := s.freeCount + 132 }

/-- `Cmd(w)`: the word is decoded; a rejection returns its code and changes nothing, otherwise the command is executed
(30_encoding.md R60, R69). -/
def runCmd (w : Word) (s : State) : StepOutcome :=
  match decode w with
  | .ok i => exec i s
  | .error r => s.reject r

/-- One host event, performed wholly (20_memory.md R51, 70_reset_and_hazards.md R155). -/
def perform (e : HostEvent) (s : State) : StepOutcome :=
  match e with
  | .regRead a => .next (regRead a s)
  | .regWrite a v => .next (regWrite a v s)
  | .cmd w => runCmd w s
  | .reset _ => .next (resetPulse s)

/-- The engine takes the host's next event, in the host's order (20_memory.md R51), and performs it; with none presented it
stays idle and nothing changes (70_reset_and_hazards.md R150, R159; log 3). -/
def takeEvent (s : State) : StepOutcome :=
  match s.pending with
  | [] => .next s
  | e :: rest => perform e { s with pending := rest }

/-- `s` with the command word presented as the host's next transaction (log 5). -/
def presentCmd (s : State) (w : Word) : State := { s with pending := .cmd w :: s.pending }

end Sys2Proof.Machine
end

