-- ==== Sys2Proof/Machine/Step.lean ====
section
/-! DEFINITION. One step of the machine: one host transaction, or none where the host presents none. -/

namespace Sys2Proof.Machine

/-- One step (00_scope.md R15). -/
def step (s : State) : Host.Outcome State Fault Refusal := takeEvent s

/-- `s` with the command of `nbits` bits `w` presented at the port ahead of everything else, which is where the engine takes
its next command from: it fetches nothing itself (10_state.md R28, 20_memory.md R54; log 5). -/
def State.withFetchWord (s : State) (nbits w : Nat) : State :=
  presentCmd s (BitVec.ofNat 32 (w % 2 ^ nbits))

end Sys2Proof.Machine
end

