-- ==== Sys2Proof/Safety.lean ====
section
/-! DEFINITION. The terms statements about the machine are written in: which lanes and scalars a command reads and writes,
what stays as it was, what a correctly rounded result is, and which replies are legal or clean. -/

namespace Sys2Proof.Machine

/-! ## What a command reads and writes (10_state.md R26, R32) -/

/-- Lanes 0 to 2W - 1, the active lanes of a command of width W (10_state.md R26). -/
def activeLane (w : Width) (l : LaneIx) : Bool := decide (l.val < 2 * w.count)

/-- Register `r` is one of the `n` consecutive registers that start at `r0` (30_encoding.md R63). -/
def inGroup (r0 : Reg) (n : Nat) (r : Reg) : Bool := decide (r0.val ≤ r.val ∧ r.val < r0.val + n)

/-- Lane `l` of register `r` is written by the command (R95 to R98, R100, R101, R111, R121). -/
def destLane (i : Instr) (r : Reg) (l : LaneIx) : Bool :=
  match i with
  | .caddW1 rd _ _ => r == rd && activeLane .w1 l
  | .caddW2 rd _ _ => r == rd && activeLane .w2 l
  | .caddW4 rd _ _ => r == rd && activeLane .w4 l
  | .csubW1 rd _ _ => r == rd && activeLane .w1 l
  | .csubW2 rd _ _ => r == rd && activeLane .w2 l
  | .csubW4 rd _ _ => r == rd && activeLane .w4 l
  | .cmulW1 rd _ _ => r == rd && activeLane .w1 l
  | .cmulW2 rd _ _ => r == rd && activeLane .w2 l
  | .cmulW4 rd _ _ => r == rd && activeLane .w4 l
  | .cdivW1 rd _ _ => r == rd && activeLane .w1 l
  | .cdivW2 rd _ _ => r == rd && activeLane .w2 l
  | .cdivW4 rd _ _ => r == rd && activeLane .w4 l
  | .packW1 rd _ => r == rd && activeLane .w1 l
  | .packW2 rd _ => r == rd && activeLane .w2 l
  | .packW4 rd _ => r == rd && activeLane .w4 l
  | .unpackW1 rd _ => inGroup rd 1 r && activeLane .w1 l
  | .unpackW2 rd _ => inGroup rd 2 r && activeLane .w1 l
  | .unpackW4 rd _ => inGroup rd 4 r && activeLane .w1 l
  | .zfW1 rd _ _ _ => inGroup rd 2 r && activeLane .w1 l
  | .zfW2 rd _ _ _ => inGroup rd 2 r && activeLane .w2 l
  | .zfW4 rd _ _ _ => inGroup rd 2 r && activeLane .w4 l
  | .mmseW1 rd _ _ _ _ => inGroup rd 2 r && activeLane .w1 l
  | .mmseW2 rd _ _ _ _ => inGroup rd 2 r && activeLane .w2 l
  | .mmseW4 rd _ _ _ _ => inGroup rd 2 r && activeLane .w4 l

/-- Lane `l` of register `r` is read by the command (R95 to R98, R100, R101, R111, R121). -/
def srcLane (i : Instr) (r : Reg) (l : LaneIx) : Bool :=
  match i with
  | .caddW1 _ ra rb => (r == ra || r == rb) && activeLane .w1 l
  | .caddW2 _ ra rb => (r == ra || r == rb) && activeLane .w2 l
  | .caddW4 _ ra rb => (r == ra || r == rb) && activeLane .w4 l
  | .csubW1 _ ra rb => (r == ra || r == rb) && activeLane .w1 l
  | .csubW2 _ ra rb => (r == ra || r == rb) && activeLane .w2 l
  | .csubW4 _ ra rb => (r == ra || r == rb) && activeLane .w4 l
  | .cmulW1 _ ra rb => (r == ra || r == rb) && activeLane .w1 l
  | .cmulW2 _ ra rb => (r == ra || r == rb) && activeLane .w2 l
  | .cmulW4 _ ra rb => (r == ra || r == rb) && activeLane .w4 l
  | .cdivW1 _ ra rb => (r == ra || r == rb) && activeLane .w1 l
  | .cdivW2 _ ra rb => (r == ra || r == rb) && activeLane .w2 l
  | .cdivW4 _ ra rb => (r == ra || r == rb) && activeLane .w4 l
  | .packW1 _ ra => inGroup ra 1 r && activeLane .w1 l
  | .packW2 _ ra => inGroup ra 2 r && activeLane .w1 l
  | .packW4 _ ra => inGroup ra 4 r && activeLane .w1 l
  | .unpackW1 _ ra => r == ra && activeLane .w1 l
  | .unpackW2 _ ra => r == ra && activeLane .w2 l
  | .unpackW4 _ ra => r == ra && activeLane .w4 l
  | .zfW1 _ ra rb _ => (inGroup ra 4 r || inGroup rb 2 r) && activeLane .w1 l
  | .zfW2 _ ra rb _ => (inGroup ra 4 r || inGroup rb 2 r) && activeLane .w2 l
  | .zfW4 _ ra rb _ => (inGroup ra 4 r || inGroup rb 2 r) && activeLane .w4 l
  | .mmseW1 _ ra rb _ _ => (inGroup ra 4 r || inGroup rb 2 r) && activeLane .w1 l
  | .mmseW2 _ ra rb _ _ => (inGroup ra 4 r || inGroup rb 2 r) && activeLane .w2 l
  | .mmseW4 _ ra rb _ _ => (inGroup ra 4 r || inGroup rb 2 r) && activeLane .w4 l

/-- Scalar register `i` is read by the command (10_state.md R32). -/
def srcScalar (c : Instr) (i : SReg) : Bool :=
  match c with
  | .caddW1 _ _ _ => false
  | .caddW2 _ _ _ => false
  | .caddW4 _ _ _ => false
  | .csubW1 _ _ _ => false
  | .csubW2 _ _ _ => false
  | .csubW4 _ _ _ => false
  | .cmulW1 _ _ _ => false
  | .cmulW2 _ _ _ => false
  | .cmulW4 _ _ _ => false
  | .cdivW1 _ _ _ => false
  | .cdivW2 _ _ _ => false
  | .cdivW4 _ _ _ => false
  | .packW1 _ _ => false
  | .packW2 _ _ => false
  | .packW4 _ _ => false
  | .unpackW1 _ _ => false
  | .unpackW2 _ _ => false
  | .unpackW4 _ _ => false
  | .zfW1 _ _ _ sg => i == sg
  | .zfW2 _ _ _ sg => i == sg
  | .zfW4 _ _ _ sg => i == sg
  | .mmseW1 _ _ _ sg sn => i == sg || i == sn
  | .mmseW2 _ _ _ sg sn => i == sg || i == sn
  | .mmseW4 _ _ _ sg sn => i == sg || i == sn

/-- The command computes, rather than moves bits: CADD, CSUB, CMUL, CDIV, ZF, MMSE (40_complex_arith.md R99(c)). -/
def computes (i : Instr) : Bool :=
  match i with
  | .caddW1 _ _ _ => true
  | .caddW2 _ _ _ => true
  | .caddW4 _ _ _ => true
  | .csubW1 _ _ _ => true
  | .csubW2 _ _ _ => true
  | .csubW4 _ _ _ => true
  | .cmulW1 _ _ _ => true
  | .cmulW2 _ _ _ => true
  | .cmulW4 _ _ _ => true
  | .cdivW1 _ _ _ => true
  | .cdivW2 _ _ _ => true
  | .cdivW4 _ _ _ => true
  | .packW1 _ _ => false
  | .packW2 _ _ => false
  | .packW4 _ _ => false
  | .unpackW1 _ _ => false
  | .unpackW2 _ _ => false
  | .unpackW4 _ _ => false
  | .zfW1 _ _ _ _ => true
  | .zfW2 _ _ _ _ => true
  | .zfW4 _ _ _ _ => true
  | .mmseW1 _ _ _ _ _ => true
  | .mmseW2 _ _ _ _ _ => true
  | .mmseW4 _ _ _ _ _ => true

/-! ## Frames -/

/-- Nothing but the lanes in `D` and the reply log differs: every other lane, every scalar, what the host has still to
present and the count of free words are as before. -/
structure OnlyLanes (D : Reg → LaneIx → Bool) (s t : State) : Prop where
  lanes : ∀ r l, D r l = false → t.lane r l = s.lane r l
  scalars : t.s = s.s
  pending : t.pending = s.pending
  freeCount : t.freeCount = s.freeCount

/-- The command completed with code 0, and nothing but the lanes in `D` and the reply log differs. -/
structure CompletedOn (D : Reg → LaneIx → Bool) (s t : State) : Prop extends OnlyLanes D s t where
  replies : t.replies = s.replies ++ [.completion 0]

/-- The word address of a lane (20_memory.md R42). -/
def laneAddr (r : Reg) (l : LaneIx) : BitVec 8 := BitVec.ofNat 8 (8 * r.val + l.val)

/-- The word address of a scalar (20_memory.md R43). -/
def scalarAddr (i : SReg) : BitVec 8 := BitVec.ofNat 8 (0x80 + i.val)

/-! ## Rounding -/

/-- `r` is the exact value `num` / `den`, in units of 2^-149, rounded once by roundTiesToEven (40_complex_arith.md R81(a)): the
infinity of its sign from 2^128 - 2^103 on, which is (2^25 - 1) · 2^252 units; otherwise a finite value of its sign to which no
finite value is nearer, and which has fraction bit 0 equal to 0 where another one is equally near. -/
def RoundsTo (num : Int) (den : Nat) (r : Word) : Prop :=
  signBit r = decide (num < 0) ∧
    if (2 ^ 25 - 1) * 2 ^ 252 * den ≤ num.natAbs then isInf r = true
    else isFinite r = true ∧
      ∀ c : Word, isFinite c = true →
        (units r * den - num).natAbs ≤ (units c * den - num).natAbs ∧
          ((units r * den - num).natAbs = (units c * den - num).natAbs → units c ≠ units r → fracField r % 2 = 0)

/-! ## Replies and safe runs -/

/-- A completion code the engine can produce: 0 to 4 (60_exceptions.md R130). -/
def Reply.legal : Reply → Bool
  | .completion code => decide (code.toNat ≤ 4)
  | .read _ _ => true
  | .write _ => true

/-- The engine has returned no code 5, 6 or 7: an invariant of every step (60_exceptions.md R130). -/
def LegalReplies (s : State) : Prop := ∀ r ∈ s.replies, r.legal = true

/-- A reply of a run in which nothing was rejected or refused: code 0 or status OK (70_reset_and_hazards.md R159). -/
def Reply.clean : Reply → Bool
  | .completion code => code == 0
  | .read status _ => status == .ok
  | .write status => status == .ok

/-- A safe run, for a reader who takes a rejection or an ERR as a fault of the program: the state records none
(60_exceptions.md R131, 70_reset_and_hazards.md R159). -/
def CleanRun (s : State) : Prop := ∀ r ∈ s.replies, r.clean = true

/-- A host event that is a transaction, which is answered; a reset is not (00_scope.md R17, 70_reset_and_hazards.md R151). -/
def HostEvent.isTransaction : HostEvent → Bool
  | .regRead _ => true
  | .regWrite _ _ => true
  | .cmd _ => true
  | .reset _ => false

/-- The reply is of the kind with which the event is answered: a status and a word for a RegRead, a status for a RegWrite, a
completion code for a Cmd, none for a reset (20_memory.md R44, R45, 60_exceptions.md R130, R133; for the reset log 2). -/
def HostEvent.answeredBy : HostEvent → Reply → Bool
  | .regRead _, .read _ _ => true
  | .regRead _, .write _ => false
  | .regRead _, .completion _ => false
  | .regWrite _ _, .read _ _ => false
  | .regWrite _ _, .write _ => true
  | .regWrite _ _, .completion _ => false
  | .cmd _, .read _ _ => false
  | .cmd _, .write _ => false
  | .cmd _, .completion _ => true
  | .reset _, .read _ _ => false
  | .reset _, .write _ => false
  | .reset _, .completion _ => false

end Sys2Proof.Machine
end

