-- ==== Sys2Proof/Certificates/Slice0/Obligations.lean ====
section
/-! DEFINITION. The statements for the provers, from the numbered rules of spec/. -/

open Sys2Proof Sys2Proof.Machine

/-! ## Encoding and decoding -/

/-- Every well-formed command decodes from its own word, with every operand at every value (30_encoding.md R62, R66 to R69). -/
def Obligations.DecodeOfEncode : Prop :=
  ∀ i : Instr, i.wf = true → decode (encode i) = .ok i

/-- Every word that decodes is the word of the command it decodes to, and that command is well formed: no legal word has a
bit the command does not carry (30_encoding.md R62, R67, R68). -/
def Obligations.EncodeOfDecode : Prop :=
  ∀ (w : Word) (i : Instr), decode w = .ok i → encode i = w ∧ i.wf = true

/-- R69: the outcome of each of the 2^32 words, with the priority of the rejections. The fields are read as numbers from the
word, by R62. A rejection returns its code and changes nothing; otherwise the word is the word of a command, the command is
executed and the code is 0. -/
def Obligations.DecodingPriority : Prop :=
  ∀ (w : Word) (s : State),
    let op := w.toNat / 2 ^ 28
    let wc := w.toNat / 2 ^ 26 % 4
    let rd := w.toNat / 2 ^ 22 % 16
    let ra := w.toNat / 2 ^ 18 % 16
    let rb := w.toNat / 2 ^ 14 % 16
    let sg := w.toNat / 2 ^ 12 % 4
    let sn := w.toNat / 2 ^ 10 % 4
    let z := w.toNat % 2 ^ 10
    let legalOp := op ∈ [1, 2, 3, 4, 5, 6, 8, 9]
    let reserved := z ≠ 0 ∨ (op ∈ [1, 2, 3, 4] ∧ (sg ≠ 0 ∨ sn ≠ 0)) ∨
      (op ∈ [5, 6] ∧ (rb ≠ 0 ∨ sg ≠ 0 ∨ sn ≠ 0)) ∨ (op = 8 ∧ sn ≠ 0)
    let range := (op = 5 ∧ ra + 2 ^ wc - 1 > 15) ∨ (op = 6 ∧ rd + 2 ^ wc - 1 > 15) ∨
      (op ∈ [8, 9] ∧ (rd + 1 > 15 ∨ ra + 3 > 15 ∨ rb + 1 > 15))
    let rejects := fun code : BitVec 3 => runCmd w s = .next (s.answer (.completion code))
    (¬legalOp → rejects 1) ∧
    (legalOp → wc = 3 → rejects 2) ∧
    (legalOp → wc ≠ 3 → reserved → rejects 3) ∧
    (legalOp → wc ≠ 3 → ¬reserved → range → rejects 4) ∧
    (legalOp → wc ≠ 3 → ¬reserved → ¬range →
      ∃ (i : Instr) (t : State), decode w = .ok i ∧ encode i = w ∧ runCmd w s = exec i s ∧
        exec i s = .next t ∧ t.replies = s.replies ++ [.completion 0])

/-- R74: the worked encodings, in the order of its table. -/
def Obligations.WorkedEncodings : Prop :=
  decode 0x10804000 = .ok (.caddW1 2 0 1) ∧
  decode 0x24804000 = .ok (.csubW2 2 0 1) ∧
  decode 0x34C48000 = .ok (.cmulW2 3 1 2) ∧
  decode 0x4BFFC000 = .ok (.cdivW4 15 15 15) ∧
  decode 0x51640000 = .ok (.packW1 5 9) ∧
  decode 0x56000000 = .ok (.packW2 8 0) ∧
  decode 0x58300000 = .ok (.packW4 0 12) ∧
  decode 0x66A00000 = .ok (.unpackW2 10 8) ∧
  decode 0x6B000000 = .ok (.unpackW4 12 0) ∧
  decode 0x81810000 = .ok (.zfW1 6 0 4 0) ∧
  decode 0x85811000 = .ok (.zfW2 6 0 4 1) ∧
  decode 0x8A010000 = .ok (.zfW4 8 0 4 0) ∧
  decode 0x91810400 = .ok (.mmseW1 6 0 4 0 1) ∧
  decode 0x9BAA3800 = .ok (.mmseW4 14 10 8 3 2)

/-! ## The real primitives -/

/-- R87: the test points of the primitives, in the order of its table. -/
def Obligations.PrimitiveTestPoints : Prop :=
  fadd 0x3F800000 0x33800000 = 0x3F800000 ∧
  fadd 0x3F800001 0x33800000 = 0x3F800002 ∧
  fadd 0x3DCCCCCD 0x3E4CCCCD = 0x3E99999A ∧
  fadd 0x7F7FFFFF 0x72800000 = 0x7F7FFFFF ∧
  fadd 0x7F7FFFFF 0x73000000 = 0x7F800000 ∧
  fadd 0x3F800000 0xBF800000 = 0x00000000 ∧
  fadd 0x80000000 0x80000000 = 0x80000000 ∧
  fadd 0x80000000 0x00000000 = 0x00000000 ∧
  fadd 0x7F800000 0xFF800000 = 0x7FC00000 ∧
  fmul 0x0D800000 0x27000000 = 0x00000001 ∧
  fmul 0x0D800000 0x26800000 = 0x00000000 ∧
  fmul 0x0DC00000 0x26800000 = 0x00000001 ∧
  fmul 0x8D800000 0x26000000 = 0x80000000 ∧
  fmul 0x7F7FFFFF 0x7F7FFFFF = 0x7F800000 ∧
  fmul 0x7F800000 0x00000000 = 0x7FC00000 ∧
  fmul 0xBF800000 0x00000000 = 0x80000000 ∧
  fdiv 0x3F800000 0x40400000 = 0x3EAAAAAB ∧
  fdiv 0x41300000 0x41C80000 = 0x3EE147AE ∧
  fdiv 0x3F800000 0x00000000 = 0x7F800000 ∧
  fdiv 0x00000000 0x00000000 = 0x7FC00000 ∧
  fdiv 0x7F800000 0x7F800000 = 0x7FC00000 ∧
  fdiv 0x3F800000 0xFF800000 = 0x80000000

/-- R82 with the rounding of R81(a): every case of addition, the rounded sum of finite values, and the two facts R82 names
beside its cases. -/
def Obligations.AdditionRule : Prop :=
  ∀ a b : Word,
    (isNaN a = true ∨ isNaN b = true → fadd a b = 0x7FC00000) ∧
    (isInf a = true → isInf b = true → signBit a ≠ signBit b → fadd a b = 0x7FC00000) ∧
    (isInf a = true → isNaN b = false → (isInf b = true → signBit a = signBit b) → fadd a b = a) ∧
    (isInf b = true → isFinite a = true → fadd a b = b) ∧
    (isZero a = true → isZero b = true →
      fadd a b = if signBit a = true ∧ signBit b = true then 0x80000000 else 0x00000000) ∧
    (isFinite a = true → isFinite b = true → isZero a = false → units a + units b = 0 → fadd a b = 0x00000000) ∧
    (isFinite a = true → isFinite b = true → units a + units b ≠ 0 → RoundsTo (units a + units b) 1 (fadd a b)) ∧
    (isZero b = true → isZero a = false → isNaN a = false → fadd a b = a) ∧
    fadd a b = fadd b a

/-- R84 with the rounding of R81(a): every case of multiplication and its commutativity. A product is in units of 2^-298. -/
def Obligations.MultiplicationRule : Prop :=
  ∀ a b : Word,
    (isNaN a = true ∨ isNaN b = true → fmul a b = 0x7FC00000) ∧
    (isInf a = true → isZero b = true → fmul a b = 0x7FC00000) ∧
    (isZero a = true → isInf b = true → fmul a b = 0x7FC00000) ∧
    (isInf a = true ∨ isInf b = true → isNaN a = false → isNaN b = false → isZero a = false → isZero b = false →
      isInf (fmul a b) = true ∧ signBit (fmul a b) = (signBit a ^^ signBit b)) ∧
    (isZero a = true ∨ isZero b = true → isFinite a = true → isFinite b = true →
      isZero (fmul a b) = true ∧ signBit (fmul a b) = (signBit a ^^ signBit b)) ∧
    (isFinite a = true → isFinite b = true → isZero a = false → isZero b = false →
      RoundsTo (units a * units b) (2 ^ 149) (fmul a b) ∧ signBit (fmul a b) = (signBit a ^^ signBit b)) ∧
    fmul a b = fmul b a

/-- R85 with the rounding of R81(a): every case of division. The quotient of the magnitudes carries the sign of the exclusive
or, so it is given to the rounding as a signed numerator over the divisor's magnitude. -/
def Obligations.DivisionRule : Prop :=
  ∀ a b : Word,
    (isNaN a = true ∨ isNaN b = true → fdiv a b = 0x7FC00000) ∧
    (isInf a = true → isInf b = true → fdiv a b = 0x7FC00000) ∧
    (isZero a = true → isZero b = true → fdiv a b = 0x7FC00000) ∧
    (isInf a = true → isFinite b = true →
      isInf (fdiv a b) = true ∧ signBit (fdiv a b) = (signBit a ^^ signBit b)) ∧
    (isFinite a = true → isInf b = true →
      isZero (fdiv a b) = true ∧ signBit (fdiv a b) = (signBit a ^^ signBit b)) ∧
    (isFinite a = true → isZero a = false → isZero b = true →
      isInf (fdiv a b) = true ∧ signBit (fdiv a b) = (signBit a ^^ signBit b)) ∧
    (isZero a = true → isFinite b = true → isZero b = false →
      isZero (fdiv a b) = true ∧ signBit (fdiv a b) = (signBit a ^^ signBit b)) ∧
    (isFinite a = true → isFinite b = true → isZero a = false → isZero b = false →
      signBit (fdiv a b) = (signBit a ^^ signBit b) ∧
        RoundsTo ((if signBit b then -units a else units a) * 2 ^ 149) (units b).natAbs (fdiv a b))

/-- R83: subtraction and the consequences it lists. -/
def Obligations.SubtractionRule : Prop :=
  (∀ a b : Word, isNaN a = true ∨ isNaN b = true → fsub a b = 0x7FC00000) ∧
  (∀ a b : Word, isNaN a = false → isNaN b = false → fsub a b = fadd a (fneg b)) ∧
  (∀ x : Word, isFinite x = true → fsub x x = 0x00000000) ∧
  fsub 0x00000000 0x00000000 = 0x00000000 ∧
  fsub 0x80000000 0x00000000 = 0x80000000 ∧
  fsub 0x00000000 0x80000000 = 0x00000000 ∧
  fsub 0x7F800000 0x7F800000 = 0x7FC00000 ∧
  (∀ a b : Word, isNaN a = false → isNaN b = false → a ≠ b → fsub a b = fneg (fsub b a)) ∧
  (∀ x : Word, isInf x = true → fsub x x = 0x7FC00000)

/-- Negation inverts bit 31 and no other bit, of every pattern (40_complex_arith.md R86). -/
def Obligations.NegationFlipsSign : Prop :=
  ∀ (a : Word) (i : Nat), i < 32 → (fneg a).getLsbD i = if i = 31 then !a.getLsbD 31 else a.getLsbD i

/-- Every NaN that a primitive returns is the one pattern 0x7FC00000, whatever NaNs went in (40_complex_arith.md R81(c)). -/
def Obligations.PrimitivesReturnCanonicalNaN : Prop :=
  ∀ a b : Word,
    (isNaN (fadd a b) = true → fadd a b = 0x7FC00000) ∧
    (isNaN (fsub a b) = true → fsub a b = 0x7FC00000) ∧
    (isNaN (fmul a b) = true → fmul a b = 0x7FC00000) ∧
    (isNaN (fdiv a b) = true → fdiv a b = 0x7FC00000) ∧
    (isNaN a = true ∨ isNaN b = true →
      fadd a b = 0x7FC00000 ∧ fsub a b = 0x7FC00000 ∧ fmul a b = 0x7FC00000 ∧ fdiv a b = 0x7FC00000)

/-! ## The complex helpers and the solver stages -/

/-- The formulas of R88, R89, R91, R93 and of the two solver stages R110 and R120, in real operations and in helpers. -/
def Obligations.HelperFormulas : Prop :=
  (∀ a b : Cplx, cadd a b = ⟨fadd a.re b.re, fadd a.im b.im⟩) ∧
  (∀ a b : Cplx, csub a b = ⟨fsub a.re b.re, fsub a.im b.im⟩) ∧
  (∀ a b : Cplx, cdiv a b =
    ⟨fdiv (fadd (fmul a.re b.re) (fmul a.im b.im)) (fadd (fmul b.re b.re) (fmul b.im b.im)),
      fdiv (fsub (fmul a.im b.re) (fmul a.re b.im)) (fadd (fmul b.re b.re) (fmul b.im b.im))⟩) ∧
  (∀ (a : Cplx) (g : Word), cscale a g = ⟨fmul a.re g, fmul a.im g⟩) ∧
  (∀ (h00 h01 h10 h11 y0 y1 : Cplx) (g : Word), zfcore h00 h01 h10 h11 y0 y1 g =
    (cscale (cdiv (csub (cmul h11 y0) (cmul h01 y1)) (csub (cmul h00 h11) (cmul h01 h10))) g,
      cscale (cdiv (csub (cmul h00 y1) (cmul h10 y0)) (csub (cmul h00 h11) (cmul h01 h10))) g)) ∧
  (∀ (h00 h01 h10 h11 y0 y1 : Cplx) (n0 : Word), mmseprep h00 h01 h10 h11 y0 y1 n0 =
    { a00 := ⟨fadd (fadd (norm2 h00) (norm2 h10)) n0, 0x00000000⟩
      a01 := cadd (cmul (cconj h00) h01) (cmul (cconj h10) h11)
      a10 := cconj (cadd (cmul (cconj h00) h01) (cmul (cconj h10) h11))
      a11 := ⟨fadd (fadd (norm2 h01) (norm2 h11)) n0, 0x00000000⟩
      z0 := cadd (cmul (cconj h00) y0) (cmul (cconj h10) y1)
      z1 := cadd (cmul (cconj h01) y0) (cmul (cconj h11) y1) })

/-- R90: the formula of complex multiplication, its commutativity bit for bit, and that it does not recover infinities. -/
def Obligations.ComplexMultiplicationRule : Prop :=
  (∀ a b : Cplx, cmul a b =
    ⟨fsub (fmul a.re b.re) (fmul a.im b.im), fadd (fmul a.re b.im) (fmul a.im b.re)⟩) ∧
  (∀ a b : Cplx, cmul a b = cmul b a) ∧
  (cmul ⟨0x7F800000, 0x00000000⟩ ⟨0x3F800000, 0x00000000⟩).im = 0x7FC00000

/-- R92: the conjugate, and the product with a conjugate bit for bit; where a NaN enters by any of the four parts, both parts
of both sides are the canonical NaN. -/
def Obligations.ConjugateRule : Prop :=
  (∀ a : Cplx, cconj a = ⟨a.re, fneg a.im⟩) ∧
  ∀ a b : Cplx,
    let real : Cplx := ⟨fadd (fmul a.re b.re) (fmul a.im b.im), fsub (fmul a.re b.im) (fmul a.im b.re)⟩
    cmul (cconj a) b = real ∧
      (isNaN a.re = true ∨ isNaN a.im = true ∨ isNaN b.re = true ∨ isNaN b.im = true →
        cmul (cconj a) b = ⟨0x7FC00000, 0x7FC00000⟩ ∧ real = ⟨0x7FC00000, 0x7FC00000⟩)

/-- R94: the squared magnitude, which for input without NaN is neither negative nor -0. -/
def Obligations.SquaredMagnitudeRule : Prop :=
  (∀ a : Cplx, norm2 a = fadd (fmul a.re a.re) (fmul a.im a.im)) ∧
  ∀ a : Cplx, isNaN a.re = false → isNaN a.im = false → isNaN (norm2 a) = false ∧ signBit (norm2 a) = false

/-- A finite dividend over a divisor both of whose parts are zeros is (NaN, NaN), not an infinity
(40_complex_arith.md R98(a)). -/
def Obligations.DivisionByComplexZero : Prop :=
  ∀ a b : Cplx, isFinite a.re = true → isFinite a.im = true → isZero b.re = true → isZero b.im = true →
    cdiv a b = ⟨0x7FC00000, 0x7FC00000⟩

/-- A NaN in any of the eight parts of H makes all four result parts the canonical NaN (42_zf_solver.md R114(c)). -/
def Obligations.NaNInMatrixReachesAllResults : Prop :=
  ∀ (h00 h01 h10 h11 y0 y1 : Cplx) (g : Word),
    (∃ h ∈ [h00, h01, h10, h11], isNaN h.re = true ∨ isNaN h.im = true) →
      zfcore h00 h01 h10 h11 y0 y1 g = (⟨0x7FC00000, 0x7FC00000⟩, ⟨0x7FC00000, 0x7FC00000⟩)

/-- With the identity as H and g = 1.0, every finite y comes back: a part that is not zero bit for bit, a zero part as a zero
(42_zf_solver.md R114(e)). -/
def Obligations.IdentityMatrixReturnsInput : Prop :=
  ∀ y0 y1 : Cplx,
    isFinite y0.re = true → isFinite y0.im = true → isFinite y1.re = true → isFinite y1.im = true →
      let one : Cplx := ⟨0x3F800000, 0x00000000⟩
      let zero : Cplx := ⟨0x00000000, 0x00000000⟩
      let x := zfcore one zero zero one y0 y1 0x3F800000
      let returned := fun u v : Word => if isZero u = true then isZero v = true else v = u
      returned y0.re x.1.re ∧ returned y0.im x.1.im ∧ returned y1.re x.2.re ∧ returned y1.im x.2.im

/-- The determinant of the Gram matrix has imaginary part exactly +0 where its diagonal is finite and not both parts of it carry
a minus sign, and the product of the parts of a01 is finite (43_mmse_solver.md R122). -/
def Obligations.GramDeterminantIsReal : Prop :=
  ∀ (d0 d1 : Word) (a01 : Cplx),
    isFinite d0 = true → isFinite d1 = true → (signBit d0 && signBit d1) = false →
      isFinite (fmul a01.re a01.im) = true →
        (csub (cmul ⟨d0, 0x00000000⟩ ⟨d1, 0x00000000⟩) (cmul a01 (cconj a01))).im = 0x00000000

/-- The imaginary parts of a01 and a10 for a real H, all its imaginary parts +0, by the pseudocode of 43_mmse_solver.md R120:
for finite real parts a01's is +0, but -0 where h00 and h10 carry a minus sign and h01 and h11 do not; with an infinity or a NaN
among them it is the canonical NaN; a10's is that pattern with the sign flipped. R125(e) says +0 and -0 for every real H: that
the pseudocode is followed is the model's choice (log 16). -/
def Obligations.RealMatrixGramImaginaryParts : Prop :=
  ∀ (r00 r01 r10 r11 : Word) (y0 y1 : Cplx) (n0 : Word),
    let m := mmseprep ⟨r00, 0x00000000⟩ ⟨r01, 0x00000000⟩ ⟨r10, 0x00000000⟩ ⟨r11, 0x00000000⟩ y0 y1 n0
    ((∀ h ∈ [r00, r01, r10, r11], isFinite h = true) →
      m.a01.im = if signBit r00 = true ∧ signBit r10 = true ∧ signBit r01 = false ∧ signBit r11 = false
        then 0x80000000 else 0x00000000) ∧
    ((∃ h ∈ [r00, r01, r10, r11], isFinite h = false) → m.a01.im = 0x7FC00000) ∧
    m.a10.im = fneg m.a01.im

/-- n0 = -0, which is inside the contract n0 ≥ 0, gives the bits of n0 = +0, for every H, y and g (43_mmse_solver.md R124). -/
def Obligations.NegativeZeroNoiseIsZeroNoise : Prop :=
  ∀ (h00 h01 h10 h11 y0 y1 : Cplx) (g : Word),
    mmsecore h00 h01 h10 h11 y0 y1 g 0x80000000 = mmsecore h00 h01 h10 h11 y0 y1 g 0x00000000

/-! ## The commands: result, completion and frame -/

/-- R95: CADD at every width, for every choice of registers, overlapping or not, with its example and the three corner cases
that concern a value: x and -x, overflow (an exact sum of 2^128 - 2^103 or more in magnitude, in units of 2^-149), and a NaN. -/
def Obligations.CaddResult : Prop :=
  (∀ (w : Width) (rd ra rb : Reg) (s : State), ∃ t, exec (.cadd w rd ra rb) s = .next t ∧
    CompletedOn (fun r l => r == rd && activeLane w l) s t ∧
    ∀ k : InstIx, k.val < w.count →
      t.c rd k = ⟨fadd (s.c ra k).re (s.c rb k).re, fadd (s.c ra k).im (s.c rb k).im⟩) ∧
  (∀ x : Word, isFinite x = true → fadd x (fneg x) = 0x00000000) ∧
  (∀ x y : Word, isFinite x = true → isFinite y = true → (2 ^ 25 - 1) * 2 ^ 252 ≤ (units x + units y).natAbs →
    isInf (fadd x y) = true ∧ signBit (fadd x y) = decide (units x + units y < 0)) ∧
  (∀ x y : Word, isNaN x = true ∨ isNaN y = true → fadd x y = 0x7FC00000) ∧
  decode 0x10804000 = .ok (.caddW1 2 0 1) ∧
  fadd 0x3F800000 0x40400000 = 0x40800000 ∧ fadd 0x40000000 0x40800000 = 0x40C00000

/-- R96: CSUB at every width, a minus b, with its corner cases and its example. -/
def Obligations.CsubResult : Prop :=
  (∀ (w : Width) (rd ra rb : Reg) (s : State), ∃ t, exec (.csub w rd ra rb) s = .next t ∧
    CompletedOn (fun r l => r == rd && activeLane w l) s t ∧
    ∀ k : InstIx, k.val < w.count →
      t.c rd k = ⟨fsub (s.c ra k).re (s.c rb k).re, fsub (s.c ra k).im (s.c rb k).im⟩) ∧
  (∀ x : Word, fsub x x = if isFinite x = true then 0x00000000 else 0x7FC00000) ∧
  decode 0x20804000 = .ok (.csubW1 2 0 1) ∧
  fsub 0x3F800000 0x40400000 = 0xC0000000 ∧ fsub 0x40000000 0x40800000 = 0xC0000000

/-- CMUL at every width, by the formula of R90 (40_complex_arith.md R97). -/
def Obligations.CmulResult : Prop :=
  ∀ (w : Width) (rd ra rb : Reg) (s : State), ∃ t, exec (.cmul w rd ra rb) s = .next t ∧
    CompletedOn (fun r l => r == rd && activeLane w l) s t ∧
    ∀ k : InstIx, k.val < w.count →
      let a := s.c ra k
      let b := s.c rb k
      t.c rd k = ⟨fsub (fmul a.re b.re) (fmul a.im b.im), fadd (fmul a.re b.im) (fmul a.im b.re)⟩

/-- CDIV at every width, a divided by b, by the formula of R91; every divisor completes with code 0, a zero one too
(40_complex_arith.md R98). -/
def Obligations.CdivResult : Prop :=
  ∀ (w : Width) (rd ra rb : Reg) (s : State), ∃ t, exec (.cdiv w rd ra rb) s = .next t ∧
    CompletedOn (fun r l => r == rd && activeLane w l) s t ∧
    ∀ k : InstIx, k.val < w.count →
      let a := s.c ra k
      let b := s.c rb k
      let den := fadd (fmul b.re b.re) (fmul b.im b.im)
      t.c rd k = ⟨fdiv (fadd (fmul a.re b.re) (fmul a.im b.im)) den,
        fdiv (fsub (fmul a.im b.re) (fmul a.re b.im)) den⟩

/-- PACK at every width: `c[0]` of the k-th register of the source group goes to instance k, bit for bit, the destination
inside the group or not; a group that passes P15 is rejected (41_pack_unpack.md R100). -/
def Obligations.PackResult : Prop :=
  ∀ (w : Width) (rd ra : Reg) (s : State),
    (ra.val + w.count - 1 ≤ 15 → ∃ t, exec (.pack w rd ra) s = .next t ∧
      CompletedOn (fun r l => r == rd && activeLane w l) s t ∧
      ∀ (k : InstIx) (q : Reg), k.val < w.count → q.val = ra.val + k.val → t.c rd k = s.c q 0) ∧
    (ra.val + w.count - 1 > 15 →
      exec (.pack w rd ra) s = .next { s with replies := s.replies ++ [.completion 4] })

/-- UNPACK at every width: instance k goes to `c[0]` of the k-th register of the destination group, bit for bit; lanes 2 to 7 of
those registers are unchanged; a group that passes P15 is rejected (41_pack_unpack.md R101). -/
def Obligations.UnpackResult : Prop :=
  ∀ (w : Width) (rd ra : Reg) (s : State),
    (rd.val + w.count - 1 ≤ 15 → ∃ t, exec (.unpack w rd ra) s = .next t ∧
      CompletedOn (fun r l => inGroup rd w.count r && decide (l.val < 2)) s t ∧
      ∀ (k : InstIx) (q : Reg), k.val < w.count → q.val = rd.val + k.val → t.c q 0 = s.c ra k) ∧
    (rd.val + w.count - 1 > 15 →
      exec (.unpack w rd ra) s = .next { s with replies := s.replies ++ [.completion 4] })

/-- ZF at every width: for every instance the solver core on the group of four at `ra`, the group of two at `rb` and g = S[sg],
all read before the group of two at `rd` is written; for every choice of groups that end at P15 or before, overlapping or not
(42_zf_solver.md R111). -/
def Obligations.ZfResult : Prop :=
  ∀ (w : Width) (rd rd1 ra ra1 ra2 ra3 rb rb1 : Reg) (sg : SReg) (s : State),
    rd1.val = rd.val + 1 → ra1.val = ra.val + 1 → ra2.val = ra.val + 2 → ra3.val = ra.val + 3 → rb1.val = rb.val + 1 →
      ∃ t, exec (.zf w rd ra rb sg) s = .next t ∧
        CompletedOn (fun r l => (r == rd || r == rd1) && activeLane w l) s t ∧
        ∀ k : InstIx, k.val < w.count →
          (t.c rd k, t.c rd1 k) =
            zfcore (s.c ra k) (s.c ra1 k) (s.c ra2 k) (s.c ra3 k) (s.c rb k) (s.c rb1 k) (s.scalar sg)

/-- MMSE at every width: for every instance the Gram stage with n0 = S[sn], then the solver core of ZF with g = S[sg]; `sn` may
be `sg` (43_mmse_solver.md R121). The statement is about bits: for n0 outside the contract it claims no meaning of the result
(R124, log 9). -/
def Obligations.MmseResult : Prop :=
  ∀ (w : Width) (rd rd1 ra ra1 ra2 ra3 rb rb1 : Reg) (sg sn : SReg) (s : State),
    rd1.val = rd.val + 1 → ra1.val = ra.val + 1 → ra2.val = ra.val + 2 → ra3.val = ra.val + 3 → rb1.val = rb.val + 1 →
      ∃ t, exec (.mmse w rd ra rb sg sn) s = .next t ∧
        CompletedOn (fun r l => (r == rd || r == rd1) && activeLane w l) s t ∧
        ∀ k : InstIx, k.val < w.count →
          let m := mmseprep (s.c ra k) (s.c ra1 k) (s.c ra2 k) (s.c ra3 k) (s.c rb k) (s.c rb1 k) (s.scalar sn)
          (t.c rd k, t.c rd1 k) = zfcore m.a00 m.a01 m.a10 m.a11 m.z0 m.z1 (s.scalar sg)

/-- A solver command one of whose groups passes P15 ends with code 4 and writes nothing; the sums do not wrap
(30_encoding.md R68; at the level of `exec` the model's choice, log 7). -/
def Obligations.SolverGroupPastP15 : Prop :=
  ∀ (w : Width) (rd ra rb : Reg) (sg sn : SReg) (s : State),
    rd.val + 1 > 15 ∨ ra.val + 3 > 15 ∨ rb.val + 1 > 15 →
      exec (.zf w rd ra rb sg) s = .next { s with replies := s.replies ++ [.completion 4] } ∧
      exec (.mmse w rd ra rb sg sn) s = .next { s with replies := s.replies ++ [.completion 4] }

/-- Every command, of all 24 and with every operand, completes; it changes no lane but its active destination lanes, no scalar,
and no word of the port but at the addresses of those lanes (10_state.md R26, R32). -/
def Obligations.CommandFrame : Prop :=
  ∀ (i : Instr) (s : State), ∃ t, exec i s = .next t ∧ OnlyLanes (destLane i) s t ∧
    (∀ a : BitVec 8, (∀ r l, destLane i r l = true → a ≠ laneAddr r l) → t.portWord a = s.portWord a) ∧
    (i.wf = true → t.replies = s.replies ++ [.completion 0])

/-- R21: what a command writes and returns is a function of the command and of the lanes and scalars it reads: two states that
agree on those give the same destination lanes and the same code. -/
def Obligations.ResultDependsOnlyOnSources : Prop :=
  ∀ (i : Instr) (s₁ s₂ : State), i.wf = true →
    (∀ r l, srcLane i r l = true → s₁.lane r l = s₂.lane r l) →
    (∀ j, srcScalar i j = true → s₁.scalar j = s₂.scalar j) →
      ∃ (t₁ t₂ : State) (code : BitVec 3), exec i s₁ = .next t₁ ∧ exec i s₂ = .next t₂ ∧
        t₁.replies = s₁.replies ++ [.completion code] ∧ t₂.replies = s₂.replies ++ [.completion code] ∧
        ∀ r l, destLane i r l = true → t₁.lane r l = t₂.lane r l

/-- Every NaN that a computing command writes is the canonical one (40_complex_arith.md R99(c)). -/
def Obligations.CommandsWriteCanonicalNaN : Prop :=
  ∀ (i : Instr) (s t : State), computes i = true → i.wf = true → exec i s = .next t →
    ∀ r l, destLane i r l = true → isNaN (t.lane r l) = true → t.lane r l = 0x7FC00000

/-- For CADD, CSUB, CMUL and CDIV the result of instance k at any width equals, bit for bit, that of the width 1 command on that
instance alone, in any registers and any state (40_complex_arith.md R99(b)). -/
def Obligations.ArithmeticWidthEquivalence : Prop :=
  ∀ mk : Width → Reg → Reg → Reg → Instr, mk ∈ [Instr.cadd, Instr.csub, Instr.cmul, Instr.cdiv] →
    ∀ (w : Width) (rd ra rb rd' ra' rb' : Reg) (k : InstIx) (s s' : State), k.val < w.count →
      s'.c ra' 0 = s.c ra k → s'.c rb' 0 = s.c rb k →
        ∃ t t', exec (mk w rd ra rb) s = .next t ∧ exec (mk .w1 rd' ra' rb') s' = .next t' ∧ t.c rd k = t'.c rd' 0

/-- For ZF and MMSE the pair written for instance k at any width equals, bit for bit, what the width 1 command writes when given
that instance's six values and the same g and n0 (42_zf_solver.md R116, 43_mmse_solver.md R127(c)). -/
def Obligations.SolverWidthEquivalence : Prop :=
  ∀ mk : Width → Reg → Reg → Reg → SReg → SReg → Instr,
    mk ∈ [fun w rd ra rb sg _ => Instr.zf w rd ra rb sg, Instr.mmse] →
    ∀ (w : Width) (rd ra rb rd' ra' rb' : Reg) (sg sn sg' sn' : SReg) (k : InstIx) (s s' : State), k.val < w.count →
      (mk w rd ra rb sg sn).wf = true → (mk .w1 rd' ra' rb' sg' sn').wf = true →
      (∀ (j : Nat) (q q' : Reg), j < 4 → q.val = ra.val + j → q'.val = ra'.val + j → s'.c q' 0 = s.c q k) →
      (∀ (j : Nat) (q q' : Reg), j < 2 → q.val = rb.val + j → q'.val = rb'.val + j → s'.c q' 0 = s.c q k) →
      s'.scalar sg' = s.scalar sg → s'.scalar sn' = s.scalar sn →
        ∃ t t', exec (mk w rd ra rb sg sn) s = .next t ∧ exec (mk .w1 rd' ra' rb' sg' sn') s' = .next t' ∧
          t.c rd k = t'.c rd' 0 ∧
          ∀ q q' : Reg, q.val = rd.val + 1 → q'.val = rd'.val + 1 → t.c q k = t'.c q' 0

/-- Permuting the active instances of every register permutes the results the same way, for every computing command at every
width: no cross-lane leakage (40_complex_arith.md R99(a), 42_zf_solver.md R116). -/
def Obligations.LaneOrderPreserved : Prop :=
  ∀ (w : Width) (rd ra rb : Reg) (sg sn : SReg) (i : Instr),
    i ∈ [.cadd w rd ra rb, .csub w rd ra rb, .cmul w rd ra rb, .cdiv w rd ra rb, .zf w rd ra rb sg,
      .mmse w rd ra rb sg sn] → i.wf = true →
    ∀ (σ : InstIx → InstIx) (s s' : State), (∀ k, (σ k).val < w.count ↔ k.val < w.count) →
      (∀ r k, s'.c r k = s.c r (σ k)) → s'.s = s.s →
        ∃ t t', exec i s = .next t ∧ exec i s' = .next t' ∧ ∀ r k, t'.c r k = t.c r (σ k)

/-- PACK then UNPACK gives back what the source group held before the PACK, for every choice of registers, overlapping or not
(41_pack_unpack.md R103(a)). -/
def Obligations.PackThenUnpack : Prop :=
  ∀ (w : Width) (d a e : Reg) (s : State), a.val + w.count - 1 ≤ 15 → e.val + w.count - 1 ≤ 15 →
    ∃ t u, exec (.pack w d a) s = .next t ∧ exec (.unpack w e d) t = .next u ∧
      ∀ (k : InstIx) (q q' : Reg), k.val < w.count → q.val = e.val + k.val → q'.val = a.val + k.val → u.c q 0 = s.c q' 0

/-- UNPACK then PACK gives lanes 0 to 2W - 1 of the source register, as they were before the UNPACK (41_pack_unpack.md R103(b),
read as before the UNPACK, log 14). -/
def Obligations.UnpackThenPack : Prop :=
  ∀ (w : Width) (d a e : Reg) (s : State), e.val + w.count - 1 ≤ 15 →
    ∃ t u, exec (.unpack w e a) s = .next t ∧ exec (.pack w d e) t = .next u ∧
      ∀ l : LaneIx, l.val < 2 * w.count → u.lane d l = s.lane a l

/-- CADD, CSUB, CMUL and CDIV: packing two groups of scalars, one command of width W and unpacking gives, per instance, the bits of the width 1 command on
the scalars (41_pack_unpack.md R103(c)). The first packed register must not lie in the second group nor be the second packed
register, or packing would destroy an operand. -/
def Obligations.PackComputeUnpack : Prop :=
  ∀ mk : Width → Reg → Reg → Reg → Instr, mk ∈ [Instr.cadd, Instr.csub, Instr.cmul, Instr.cdiv] →
    ∀ (w : Width) (a b pa pb pd e : Reg) (s : State),
      a.val + w.count - 1 ≤ 15 → b.val + w.count - 1 ≤ 15 → e.val + w.count - 1 ≤ 15 →
      inGroup b w.count pa = false → pa ≠ pb →
        ∃ t₁ t₂ t₃ t₄, exec (.pack w pa a) s = .next t₁ ∧ exec (.pack w pb b) t₁ = .next t₂ ∧
          exec (mk w pd pa pb) t₂ = .next t₃ ∧ exec (.unpack w e pd) t₃ = .next t₄ ∧
          ∀ (k : InstIx) (qa qb qe d : Reg), k.val < w.count → qa.val = a.val + k.val → qb.val = b.val + k.val →
            qe.val = e.val + k.val → ∃ u, exec (mk .w1 d qa qb) s = .next u ∧ t₄.c qe 0 = u.c d 0

/-- ZF and MMSE: packing six groups of scalars register by register, one solver command of width W and unpacking both result
registers gives, per instance, the bits of the width 1 command on that instance's six scalars and the same g and n0
(41_pack_unpack.md R103(c)). `before j` is the state in which group j is packed, `g j` the group's first register and `q j`
the register it is packed into; before the next pack the host may do anything (at width 4 six separate groups do not fit the
file at once), as long as `s`, where the solver runs, still has what the packs wrote. The first UNPACK must leave x1's register
alone. Six packs in a row are the case in which each `before j` is the state after the pack before it. -/
def Obligations.PackSolveUnpack : Prop :=
  ∀ mk : Width → Reg → Reg → Reg → SReg → SReg → Instr,
    mk ∈ [fun w rd ra rb sg _ => Instr.zf w rd ra rb sg, Instr.mmse] →
    ∀ (w : Width) (rd rd1 ra rb e e1 : Reg) (sg sn : SReg) (g q : Fin 6 → Reg) (before : Fin 6 → State),
      rd1.val = rd.val + 1 → (∀ j : Fin 6, (q j).val = if j.val < 4 then ra.val + j.val else rb.val + (j.val - 4)) →
      (∀ j, (g j).val + w.count - 1 ≤ 15) → e.val + w.count - 1 ≤ 15 → e1.val + w.count - 1 ≤ 15 →
      inGroup e w.count rd1 = false →
      ∃ after : Fin 6 → State, (∀ j, exec (.pack w (q j) (g j)) (before j) = .next (after j)) ∧
        ∀ s : State, (∀ (j : Fin 6) (k : InstIx), k.val < w.count → s.c (q j) k = (after j).c (q j) k) →
          ∃ t u v, exec (mk w rd ra rb sg sn) s = .next t ∧ exec (.unpack w e rd) t = .next u ∧
            exec (.unpack w e1 rd1) u = .next v ∧
            ∀ (k : InstIx) (qe qe1 rd' rd1' ra' rb' : Reg) (sg' sn' : SReg) (q' : Fin 6 → Reg) (s' : State),
              k.val < w.count → qe.val = e.val + k.val → qe1.val = e1.val + k.val → rd1'.val = rd'.val + 1 →
              (∀ j : Fin 6, (q' j).val = if j.val < 4 then ra'.val + j.val else rb'.val + (j.val - 4)) →
              (∀ (j : Fin 6) (h : Reg), h.val = (g j).val + k.val → s'.c (q' j) 0 = (before j).c h 0) →
              s'.scalar sg' = s.scalar sg → s'.scalar sn' = s.scalar sn →
                ∃ t', exec (mk .w1 rd' ra' rb' sg' sn') s' = .next t' ∧
                  u.c qe 0 = t'.c rd' 0 ∧ v.c qe1 0 = t'.c rd1' 0

/-- PACK.W1 (CMOV) and UNPACK.W1 have the same effect: they copy lanes 0 and 1 and complete with code 0 (30_encoding.md R73). -/
def Obligations.CmovSpellings : Prop :=
  ∀ (rd ra : Reg) (s : State), exec (.packW1 rd ra) s = exec (.unpackW1 rd ra) s ∧
    ∃ t, exec (.packW1 rd ra) s = .next t ∧ t.c rd 0 = s.c ra 0

/-- A ZF instance whose determinant comes out as two zeros gets the canonical NaN in all four result lanes, whatever y and g are,
and the command completes with code 0 (42_zf_solver.md R113(a)). -/
def Obligations.SingularChannelGivesNaN : Prop :=
  ∀ (w : Width) (rd rd1 ra ra1 ra2 ra3 rb : Reg) (sg : SReg) (s : State) (k : InstIx), k.val < w.count →
    rd1.val = rd.val + 1 → ra1.val = ra.val + 1 → ra2.val = ra.val + 2 → ra3.val = ra.val + 3 → rb.val + 1 ≤ 15 →
    let det := csub (cmul (s.c ra k) (s.c ra3 k)) (cmul (s.c ra1 k) (s.c ra2 k))
    isZero det.re = true → isZero det.im = true →
      ∃ t, exec (.zf w rd ra rb sg) s = .next t ∧ t.replies = s.replies ++ [.completion 0] ∧
        t.c rd k = ⟨0x7FC00000, 0x7FC00000⟩ ∧ t.c rd1 k = ⟨0x7FC00000, 0x7FC00000⟩

/-! ## The port and the step -/

/-- When the host's next transaction is a command word that decodes, the step is the command's meaning, on the state in which
that transaction is taken from the host; the reply is appended by the meaning (30_encoding.md R60). -/
def Obligations.StepRunsDecodedCommand : Prop :=
  ∀ (s : State) (w : Word) (rest : List HostEvent) (i : Instr),
    s.pending = .cmd w :: rest → decode w = .ok i → step s = exec i { s with pending := rest }

/-- R131: a rejected command returns its code and leaves the engine bit for bit as it was, ready for the next transaction; the
word alone decides it, in every state. The codes are those of R130. -/
def Obligations.RejectionWritesNothing : Prop :=
  ∀ (s : State) (w : Word) (rest : List HostEvent) (r : Reject),
    s.pending = .cmd w :: rest → decode w = .error r →
      step s = .next { s with
        pending := rest
        replies := s.replies ++ [.completion (match r with
          | .illegalOpcode => 1
          | .illegalWidth => 2
          | .reservedNonzero => 3
          | .regRange => 4)] }

/-- R42 and R43: which lane and which scalar each word address names; the real part of instance k of Pr is at 8r + 2k and the
imaginary part at 8r + 2k + 1. -/
def Obligations.AddressMap : Prop :=
  ∀ s : State,
    (∀ (a : BitVec 8) (r : Reg) (l : LaneIx), a.toNat = 8 * r.val + l.val → s.portWord a = some ((s.p[r.val])[l.val])) ∧
    (∀ (a : BitVec 8) (r : Reg) (k : InstIx), a.toNat = 8 * r.val + 2 * k.val → s.portWord a = some (s.c r k).re) ∧
    (∀ (a : BitVec 8) (r : Reg) (k : InstIx), a.toNat = 8 * r.val + 2 * k.val + 1 → s.portWord a = some (s.c r k).im) ∧
    (∀ (a : BitVec 8) (i : SReg), a.toNat = 0x80 + i.val → s.portWord a = some (s.s[i.val]))

/-- RegRead at every address (20_memory.md R44); it changes no state of the engine, and two reads of one mapped address in a
row return the same word. Two clauses rest on the model's choices. R44 claims the repeated read only of a lane written since
reset: that it holds of every lane and scalar is so because each has one value from reset on (logs 1 and 2). And the word
returned with ERR is left open by the rule: that it is a free word, counted in `freeCount`, is log 6. -/
def Obligations.RegReadRule : Prop :=
  (∀ (s : State) (a : BitVec 8) (rest : List HostEvent), s.pending = .regRead a :: rest →
    let returns := fun word : Word =>
      step s = .next { s with pending := rest, replies := s.replies ++ [.read .ok word] }
    (∀ (r : Reg) (l : LaneIx), a.toNat ≤ 0x7F → r.val = a.toNat / 8 → l.val = a.toNat % 8 → returns (s.lane r l)) ∧
    (∀ i : SReg, 0x80 ≤ a.toNat → a.toNat ≤ 0x83 → i.val = a.toNat % 4 → returns (s.scalar i)) ∧
    (a.toNat = 0x84 → returns 0x00000007) ∧
    (0x85 ≤ a.toNat → ∃ word : Word, step s = .next
      { s with pending := rest, replies := s.replies ++ [.read .err word], freeCount := s.freeCount + 1 })) ∧
  (∀ (s : State) (a : BitVec 8) (rest : List HostEvent), s.pending = .regRead a :: .regRead a :: rest → a.toNat ≤ 0x84 →
    ∃ (word : Word) (t u : State), step s = .next t ∧ step t = .next u ∧
      u.replies = s.replies ++ [.read .ok word, .read .ok word])

/-- R45: RegWrite at every address. A write to a lane or a scalar stores the word bit for bit, any of the 2^32 patterns, and
leaves every other word of the port as it was; a write to CAP or to an unmapped address is answered ERR and writes nothing. -/
def Obligations.RegWriteRule : Prop :=
  ∀ (s : State) (a : BitVec 8) (v : Word) (rest : List HostEvent), s.pending = .regWrite a v :: rest →
    (a.toNat ≤ 0x83 → ∃ t, step s = .next t ∧ t.pending = rest ∧ t.replies = s.replies ++ [.write .ok] ∧
      t.freeCount = s.freeCount ∧
      (∀ (r : Reg) (l : LaneIx), t.lane r l = if a.toNat = 8 * r.val + l.val then v else s.lane r l) ∧
      (∀ i : SReg, t.scalar i = if a.toNat = 0x80 + i.val then v else s.scalar i) ∧
      t.portWord a = some v ∧ ∀ b : BitVec 8, b ≠ a → t.portWord b = s.portWord b) ∧
    (0x84 ≤ a.toNat →
      step s = .next { s with pending := rest, replies := s.replies ++ [.write .err] })

/-- R46: the refused accesses change nothing of P and S and are answered ERR, and the engine goes on with the next transaction. -/
def Obligations.AccessErrors : Prop :=
  ∀ (s : State) (a : BitVec 8) (e : HostEvent) (rest : List HostEvent), s.pending = e :: rest →
    (e = .regRead a ∧ 0x85 ≤ a.toNat) ∨ (∃ v, e = .regWrite a v ∧ 0x84 ≤ a.toNat) →
      ∃ t, step s = .next t ∧ t.p = s.p ∧ t.s = s.s ∧ t.pending = rest ∧
        (e = .regRead a → ∃ word, t.replies = s.replies ++ [.read .err word]) ∧
        (∀ v, e = .regWrite a v → t.replies = s.replies ++ [.write .err])

/-- Each transaction is answered once, by a reply of its own kind, and the host's next one comes up: a Cmd never returns
ERR and a register transaction never returns a completion code; ERR comes exactly from the unmapped addresses and from a write
to CAP, and changes nothing of P and S (60_exceptions.md R133). A completion code is at most 4 (R130). That a reset is an event
of its own, which answers nothing, rests on 70_reset_and_hazards.md R151 and on the model's choice (log 2). -/
def Obligations.RepliesAreOfTheirKind : Prop :=
  ∀ (s : State) (e : HostEvent) (rest : List HostEvent), s.pending = e :: rest →
    ∃ t, step s = .next t ∧ t.pending = rest ∧
      (∀ w, e = .cmd w → ∃ code : BitVec 3, code.toNat ≤ 4 ∧ t.replies = s.replies ++ [.completion code]) ∧
      (∀ a, e = .regRead a → ∃ status word, t.replies = s.replies ++ [.read status word] ∧
        (status = .err ↔ 0x85 ≤ a.toNat) ∧ t.p = s.p ∧ t.s = s.s) ∧
      (∀ a v, e = .regWrite a v → ∃ status, t.replies = s.replies ++ [.write status] ∧
        (status = .err ↔ 0x84 ≤ a.toNat) ∧ (status = .err → t.p = s.p ∧ t.s = s.s)) ∧
      (∀ f, e = .reset f → t.replies = s.replies)

/-- Every step completes, in every state: no command, no data and no transaction stops the engine (60_exceptions.md R132,
70_reset_and_hazards.md R155, R158). -/
def Obligations.EveryStepCompletes : Prop :=
  ∀ s : State, ∃ t, step s = .next t

/-- A run is over after as many steps as the host has events: each transaction was answered once, in order, a RegRead by a
status and a word, a RegWrite by a status and a Cmd by a completion code, and the idle engine then stays as it is
(00_scope.md R17, 70_reset_and_hazards.md R159; the queue of events, the log of replies and the unanswered reset are the model's
choices, logs 2, 3 and 4). -/
def Obligations.RunAnswersEveryTransaction : Prop :=
  ∀ s : State, ∃ t : State, Host.Core.run Sys2Proof.core s.pending.length s = .next t ∧ t.pending = [] ∧
    step t = .next t ∧
    ∃ answers : List Reply, t.replies = s.replies ++ answers ∧
      List.Forall₂ (fun e r => HostEvent.answeredBy e r = true) (s.pending.filter HostEvent.isTransaction) answers

/-- Only a RegWrite to a scalar's address, or a reset, changes a scalar register: no command writes S (10_state.md R27). -/
def Obligations.ScalarsChangeOnlyByHost : Prop :=
  ∀ s t : State, step s = .next t →
    (∀ a v rest, s.pending = .regWrite a v :: rest → ¬(0x80 ≤ a.toNat ∧ a.toNat ≤ 0x83)) →
    (∀ f rest, s.pending ≠ .reset f :: rest) → t.s = s.s

/-- No step returns a code 5, 6 or 7: the invariant holds after every step from every state in which it holds
(60_exceptions.md R130). -/
def Obligations.StepKeepsLegalReplies : Prop :=
  ∀ s t : State, LegalReplies s → step s = .next t → LegalReplies t

/-- The invariant holds at reset: nothing was returned yet (the empty reply log is the model's choice, log 4). -/
def Obligations.ResetHasLegalReplies : Prop :=
  LegalReplies State.reset

/-- Right after reset CAP reads 7 and the engine is idle: with nothing presented it stays as it is, and its first transaction is
performed like any other (10_state.md R33, 70_reset_and_hazards.md R150; the fields `pending` and `replies` are the model's own,
logs 3 and 4). -/
def Obligations.ResetIsIdle : Prop :=
  State.reset.portWord 0x84 = some 0x00000007 ∧ step State.reset = .next State.reset ∧
    ∀ e : HostEvent, step { State.reset with pending := [e] } = perform e State.reset

/-- A reset during a run answers nothing, the abandoned command neither; the host's next transaction comes up, and CAP still
reads 7 (70_reset_and_hazards.md R150, R151; that a reset is one event is the model's choice, log 2). Nothing is claimed of P
and S. -/
def Obligations.ResetAnswersNothing : Prop :=
  ∀ (s : State) (f : Option Word) (rest : List HostEvent), s.pending = .reset f :: rest →
    ∃ t, step s = .next t ∧ t.pending = rest ∧ t.replies = s.replies ∧ t.portWord 0x84 = some 0x00000007
end

