-- ==== Sys2Proof/Laws/Binary32.lean ====
section
/-! SUPPORT. The small lemmas of the real format and the primitives: fields of a built pattern, negation, rounding to an
integer, and which results can be a NaN. -/

namespace Sys2Proof.Machine

/-! ## Fields -/

theorem signBit_eq (a : Word) : signBit a = decide (2 ^ 31 ≤ a.toNat) := by
  have h := BitVec.msb_eq_decide a
  rw [signBit, ← h, BitVec.msb_eq_getLsbD_last]

theorem expField_eq (a : Word) : expField a = a.toNat / 2 ^ 23 % 2 ^ 8 := by
  simp [expField, BitVec.extractLsb'_toNat, Nat.shiftRight_eq_div_pow]

theorem fracField_eq (a : Word) : fracField a = a.toNat % 2 ^ 23 := by
  simp [fracField, BitVec.extractLsb'_toNat]

/-- A pattern is its three fields (40_complex_arith.md R80). -/
theorem toNat_eq_fields (a : Word) :
    a.toNat = (if signBit a then 2 ^ 31 else 0) + expField a * 2 ^ 23 + fracField a := by
  rw [signBit_eq, expField_eq, fracField_eq]
  have := a.isLt
  simp only [decide_eq_true_eq]
  split <;> omega

theorem eq_of_fields {a b : Word} (hs : signBit a = signBit b) (he : expField a = expField b)
    (hf : fracField a = fracField b) : a = b := by
  apply BitVec.eq_of_toNat_eq
  rw [toNat_eq_fields a, toNat_eq_fields b, hs, he, hf]

theorem withSign_toNat {sg : Bool} {m : Nat} (h : m < 2 ^ 31) :
    (withSign sg m).toNat = (if sg then 2 ^ 31 else 0) + m := by
  rw [withSign, BitVec.toNat_ofNat]
  split <;> omega

theorem signBit_withSign {sg : Bool} {m : Nat} (h : m < 2 ^ 31) : signBit (withSign sg m) = sg := by
  rw [signBit_eq, withSign_toNat h]
  cases sg <;> simp
  omega

theorem expField_withSign {sg : Bool} {m : Nat} (h : m < 2 ^ 31) : expField (withSign sg m) = m / 2 ^ 23 := by
  rw [expField_eq, withSign_toNat h]
  cases sg <;> simp <;> omega

theorem fracField_withSign {sg : Bool} {m : Nat} (h : m < 2 ^ 31) : fracField (withSign sg m) = m % 2 ^ 23 := by
  rw [fracField_eq, withSign_toNat h]
  cases sg <;> simp
  omega

/-! ## Negation -/

@[simp] theorem signBit_fneg (a : Word) : signBit (fneg a) = !signBit a := by
  simp only [signBit, fneg, BitVec.getLsbD_xor]
  have : (0x80000000#32).getLsbD 31 = true := by decide
  rw [show (0x80000000 : Word) = 0x80000000#32 from rfl, this, Bool.xor_true]

@[simp] theorem expField_fneg (a : Word) : expField (fneg a) = expField a := by
  have h : (fneg a).extractLsb' 23 8 = a.extractLsb' 23 8 := by
    ext i hi
    simp only [fneg, BitVec.getElem_extractLsb', BitVec.getLsbD_xor]
    have : (0x80000000 : Word).getLsbD (23 + i) = false := by
      interval_cases i <;> decide
    rw [this, Bool.xor_false]
  simp only [expField, h]

@[simp] theorem fracField_fneg (a : Word) : fracField (fneg a) = fracField a := by
  have h : (fneg a).extractLsb' 0 23 = a.extractLsb' 0 23 := by
    ext i hi
    simp only [fneg, BitVec.getElem_extractLsb', BitVec.getLsbD_xor]
    have : (0x80000000 : Word).getLsbD (0 + i) = false := by
      interval_cases i <;> decide
    rw [this, Bool.xor_false]
  simp only [fracField, h]

@[simp] theorem fneg_fneg (a : Word) : fneg (fneg a) = a :=
  eq_of_fields (by simp) (by simp) (by simp)

@[simp] theorem isNaN_fneg (a : Word) : isNaN (fneg a) = isNaN a := by simp [isNaN]

@[simp] theorem isInf_fneg (a : Word) : isInf (fneg a) = isInf a := by simp [isInf]

@[simp] theorem isZero_fneg (a : Word) : isZero (fneg a) = isZero a := by simp [isZero]

@[simp] theorem isFinite_fneg (a : Word) : isFinite (fneg a) = isFinite a := by simp [isFinite]

@[simp] theorem magUnits_fneg (a : Word) : magUnits (fneg a) = magUnits a := by simp [magUnits]

@[simp] theorem units_fneg (a : Word) : units (fneg a) = -units a := by
  cases h : signBit a <;> simp [units, h]

/-! ## Classes -/

/-- A zero is a pattern of magnitude 0 (40_complex_arith.md R80). -/
theorem magUnits_eq_zero {a : Word} : magUnits a = 0 ↔ isZero a = true := by
  simp only [magUnits, isZero, Bool.and_eq_true, beq_iff_eq]
  split
  · next h => simp [h]
  · next h =>
    have : 0 < (2 ^ 23 + fracField a) * 2 ^ (expField a - 1) := by positivity
    simp [h]

theorem isFinite_eq (a : Word) : isFinite a = (!isNaN a && !isInf a) := by
  simp only [isFinite, isNaN, isInf, bne]
  cases expField a == 255 <;> cases fracField a == 0 <;> rfl

/-! ## Rounding -/

theorem roundMag_le (n d : Nat) : roundMag n d ≤ infMag := Nat.min_le_right _ _

theorem roundMag_lt (n d : Nat) : roundMag n d < 2 ^ 31 :=
  lt_of_le_of_lt (roundMag_le n d) (by decide)

/-- `nearestEven` is within half of the fraction, and exactly half away only from an even number. -/
theorem nearestEven_spec {n d : Nat} (hd : 0 < d) :
    2 * (nearestEven n d * d) ≤ 2 * n + d ∧ 2 * n ≤ 2 * (nearestEven n d * d) + d ∧
      ((2 * (nearestEven n d * d) = 2 * n + d ∨ 2 * n = 2 * (nearestEven n d * d) + d) → nearestEven n d % 2 = 0) := by
  have h := Nat.div_add_mod n d
  have hr := Nat.mod_lt n hd
  rw [Nat.mul_comm] at h
  simp only [nearestEven, Bool.or_eq_true, decide_eq_true_eq, Bool.and_eq_true, beq_iff_eq]
  split
  · next c =>
    rw [Nat.add_mul]
    refine ⟨by omega, by omega, fun e => ?_⟩
    rcases c with c | c <;> omega
  · next c =>
    refine ⟨by omega, by omega, fun e => ?_⟩
    have : 2 * (n % d) = d := by omega
    by_contra hodd
    exact c (.inr ⟨this, by omega⟩)

/-- A rounded result is never a NaN. -/
theorem isNaN_roundReal (sg : Bool) (n d : Nat) : isNaN (roundReal sg n d) = false := by
  have h := roundMag_le n d
  have h2 := roundMag_lt n d
  simp only [isNaN, roundReal, expField_withSign h2, fracField_withSign h2, infMag] at *
  by_contra hc
  simp at hc
  omega

@[simp] theorem isNaN_cnan : isNaN cnan = true := by decide

end Sys2Proof.Machine
end

