-- ==== Sys2Proof/Laws/Decode.lean ====
section
/-! SUPPORT. The fields of an encoded word, the two code tables read back, and the form of the decoder's answers. -/

namespace Sys2Proof

/-- The eight fields of R62 as one number. -/
theorem encodeFields_toNat (op : Op) (wd : Width) (rd ra rb : Reg) (sg sn : SReg) :
    (encodeFields op wd rd ra rb sg sn).toNat =
      (opCode op).toNat * 2 ^ 28 + (widthCode wd).toNat * 2 ^ 26 + rd.val * 2 ^ 22 + ra.val * 2 ^ 18 + rb.val * 2 ^ 14 +
        sg.val * 2 ^ 12 + sn.val * 2 ^ 10 := by
  have h1 : (BitVec.ofFin (w := 4) rd).toNat = rd.val := rfl
  have h2 : (BitVec.ofFin (w := 4) ra).toNat = ra.val := rfl
  have h3 : (BitVec.ofFin (w := 4) rb).toNat = rb.val := rfl
  have h4 : (BitVec.ofFin (w := 2) sg).toNat = sg.val := rfl
  have h5 : (BitVec.ofFin (w := 2) sn).toNat = sn.val := rfl
  have l (n : Nat) {a b : Nat} (hb : b < 2 ^ n) : a <<< n ||| b = a * 2 ^ n + b := by
    rw [Nat.shiftLeft_eq, Nat.mul_comm, ← Nat.two_pow_add_eq_or_of_lt hb]
  have lt4 (x : Fin 16) : x.val < 2 ^ 4 := x.isLt
  have lt2 (x : Fin 4) : x.val < 2 ^ 2 := x.isLt
  unfold encodeFields
  simp only [BitVec.toNat_append, h1, h2, h3, h4, h5]
  rw [l 10 (by decide), l 2 (lt2 sn), l 2 (lt2 sg), l 4 (lt4 rb), l 4 (lt4 ra), l 4 (lt4 rd), l 2 (widthCode wd).isLt]
  simp only [BitVec.toNat_ofNat]
  omega

theorem opField_toNat (w : Word) : (opField w).toNat = w.toNat / 2 ^ 28 % 2 ^ 4 := by
  simp [opField, BitVec.extractLsb'_toNat, Nat.shiftRight_eq_div_pow]
theorem wcField_toNat (w : Word) : (wcField w).toNat = w.toNat / 2 ^ 26 % 2 ^ 2 := by
  simp [wcField, BitVec.extractLsb'_toNat, Nat.shiftRight_eq_div_pow]
theorem rdField_toNat (w : Word) : (rdField w).toNat = w.toNat / 2 ^ 22 % 2 ^ 4 := by
  simp [rdField, BitVec.extractLsb'_toNat, Nat.shiftRight_eq_div_pow]
theorem raField_toNat (w : Word) : (raField w).toNat = w.toNat / 2 ^ 18 % 2 ^ 4 := by
  simp [raField, BitVec.extractLsb'_toNat, Nat.shiftRight_eq_div_pow]
theorem rbField_toNat (w : Word) : (rbField w).toNat = w.toNat / 2 ^ 14 % 2 ^ 4 := by
  simp [rbField, BitVec.extractLsb'_toNat, Nat.shiftRight_eq_div_pow]
theorem sgField_toNat (w : Word) : (sgField w).toNat = w.toNat / 2 ^ 12 % 2 ^ 2 := by
  simp [sgField, BitVec.extractLsb'_toNat, Nat.shiftRight_eq_div_pow]
theorem snField_toNat (w : Word) : (snField w).toNat = w.toNat / 2 ^ 10 % 2 ^ 2 := by
  simp [snField, BitVec.extractLsb'_toNat, Nat.shiftRight_eq_div_pow]
theorem zField_toNat (w : Word) : (zField w).toNat = w.toNat % 2 ^ 10 := by
  simp [zField, BitVec.extractLsb'_toNat]

section
variable (op : Op) (wd : Width) (rd ra rb : Reg) (sg sn : SReg)

@[simp] theorem opField_encodeFields : opField (encodeFields op wd rd ra rb sg sn) = opCode op := by
  apply BitVec.eq_of_toNat_eq
  rw [opField_toNat, encodeFields_toNat]
  have := (opCode op).isLt; have := (widthCode wd).isLt
  omega

@[simp] theorem wcField_encodeFields : wcField (encodeFields op wd rd ra rb sg sn) = widthCode wd := by
  apply BitVec.eq_of_toNat_eq
  rw [wcField_toNat, encodeFields_toNat]
  have := (opCode op).isLt; have := (widthCode wd).isLt
  omega

@[simp] theorem rdField_encodeFields : (rdField (encodeFields op wd rd ra rb sg sn)).toFin = rd := by
  apply Fin.ext
  rw [BitVec.val_toFin, rdField_toNat, encodeFields_toNat]
  omega

@[simp] theorem raField_encodeFields : (raField (encodeFields op wd rd ra rb sg sn)).toFin = ra := by
  apply Fin.ext
  rw [BitVec.val_toFin, raField_toNat, encodeFields_toNat]
  omega

@[simp] theorem rbField_encodeFields : (rbField (encodeFields op wd rd ra rb sg sn)).toFin = rb := by
  apply Fin.ext
  rw [BitVec.val_toFin, rbField_toNat, encodeFields_toNat]
  omega

@[simp] theorem sgField_encodeFields : (sgField (encodeFields op wd rd ra rb sg sn)).toFin = sg := by
  apply Fin.ext
  rw [BitVec.val_toFin, sgField_toNat, encodeFields_toNat]
  omega

@[simp] theorem snField_encodeFields : (snField (encodeFields op wd rd ra rb sg sn)).toFin = sn := by
  apply Fin.ext
  rw [BitVec.val_toFin, snField_toNat, encodeFields_toNat]
  omega

@[simp] theorem zField_encodeFields : zField (encodeFields op wd rd ra rb sg sn) = 0 := by
  apply BitVec.eq_of_toNat_eq
  rw [zField_toNat, encodeFields_toNat]
  simp; omega

end

@[simp] theorem opOfField_opCode (op : Op) : opOfField (opCode op) = some op := by cases op <;> rfl

@[simp] theorem widthOfField_widthCode (wd : Width) : widthOfField (widthCode wd) = some wd := by cases wd <;> rfl

theorem opCode_of_opOfField {b : BitVec 4} {op : Op} (h : opOfField b = some op) : opCode op = b := by
  revert b op; decide

theorem widthCode_of_widthOfField {b : BitVec 2} {wd : Width} (h : widthOfField b = some wd) : widthCode wd = b := by
  revert b wd; decide

/-- What an accepted word is: its opcode and width are in the tables and no check of R69 fails. -/
theorem decode_ok_iff {w : Word} {i : Instr} :
    decode w = .ok i ↔ ∃ op wd, opOfField (opField w) = some op ∧ widthOfField (wcField w) = some wd ∧
      reservedFails op w = false ∧ rangeFails op wd w = false ∧ assemble op wd w = i := by
  unfold decode
  cases h1 : opOfField (opField w) with
  | none => simp
  | some op =>
    cases h2 : widthOfField (wcField w) with
    | none => simp
    | some wd => cases h3 : reservedFails op w <;> cases h4 : rangeFails op wd w <;> simp [h3, h4]

end Sys2Proof
end

