-- ==== Sys2Proof/Laws/State.lean ====
section
/-! SUPPORT. One lemma per field per update of State, true by rfl. -/

namespace Sys2Proof.Machine

@[simp] theorem setLane_s (s : State) (r : Reg) (l : LaneIx) (v : Word) : (s.setLane r l v).s = s.s := rfl
@[simp] theorem setLane_pending (s : State) (r : Reg) (l : LaneIx) (v : Word) : (s.setLane r l v).pending = s.pending := rfl
@[simp] theorem setLane_replies (s : State) (r : Reg) (l : LaneIx) (v : Word) : (s.setLane r l v).replies = s.replies := rfl
@[simp] theorem setLane_freeCount (s : State) (r : Reg) (l : LaneIx) (v : Word) :
    (s.setLane r l v).freeCount = s.freeCount := rfl

@[simp] theorem setScalar_p (s : State) (i : SReg) (v : Word) : (s.setScalar i v).p = s.p := rfl
@[simp] theorem setScalar_pending (s : State) (i : SReg) (v : Word) : (s.setScalar i v).pending = s.pending := rfl
@[simp] theorem setScalar_replies (s : State) (i : SReg) (v : Word) : (s.setScalar i v).replies = s.replies := rfl
@[simp] theorem setScalar_freeCount (s : State) (i : SReg) (v : Word) : (s.setScalar i v).freeCount = s.freeCount := rfl

@[simp] theorem setC_s (s : State) (r : Reg) (k : InstIx) (v : Cplx) : (s.setC r k v).s = s.s := rfl
@[simp] theorem setC_pending (s : State) (r : Reg) (k : InstIx) (v : Cplx) : (s.setC r k v).pending = s.pending := rfl
@[simp] theorem setC_replies (s : State) (r : Reg) (k : InstIx) (v : Cplx) : (s.setC r k v).replies = s.replies := rfl
@[simp] theorem setC_freeCount (s : State) (r : Reg) (k : InstIx) (v : Cplx) : (s.setC r k v).freeCount = s.freeCount := rfl

@[simp] theorem answer_p (s : State) (r : Reply) : (s.answer r).p = s.p := rfl
@[simp] theorem answer_s (s : State) (r : Reply) : (s.answer r).s = s.s := rfl
@[simp] theorem answer_pending (s : State) (r : Reply) : (s.answer r).pending = s.pending := rfl
@[simp] theorem answer_replies (s : State) (r : Reply) : (s.answer r).replies = s.replies ++ [r] := rfl
@[simp] theorem answer_freeCount (s : State) (r : Reply) : (s.answer r).freeCount = s.freeCount := rfl
@[simp] theorem answer_lane (s : State) (r : Reply) (q : Reg) (l : LaneIx) : (s.answer r).lane q l = s.lane q l := rfl
@[simp] theorem answer_c (s : State) (r : Reply) (q : Reg) (k : InstIx) : (s.answer r).c q k = s.c q k := rfl
@[simp] theorem answer_scalar (s : State) (r : Reply) (i : SReg) : (s.answer r).scalar i = s.scalar i := rfl
@[simp] theorem answer_portWord (s : State) (r : Reply) (a : BitVec 8) : (s.answer r).portWord a = s.portWord a := rfl

@[simp] theorem resetPulse_pending (s : State) : (resetPulse s).pending = s.pending := rfl
@[simp] theorem resetPulse_replies (s : State) : (resetPulse s).replies = s.replies := rfl
@[simp] theorem resetPulse_freeCount (s : State) : (resetPulse s).freeCount = s.freeCount + 132 := rfl

@[simp] theorem presentCmd_p (s : State) (w : Word) : (presentCmd s w).p = s.p := rfl
@[simp] theorem presentCmd_s (s : State) (w : Word) : (presentCmd s w).s = s.s := rfl
@[simp] theorem presentCmd_pending (s : State) (w : Word) : (presentCmd s w).pending = .cmd w :: s.pending := rfl
@[simp] theorem presentCmd_replies (s : State) (w : Word) : (presentCmd s w).replies = s.replies := rfl
@[simp] theorem presentCmd_freeCount (s : State) (w : Word) : (presentCmd s w).freeCount = s.freeCount := rfl

@[simp] theorem withPending_lane (s : State) (es : List HostEvent) (r : Reg) (l : LaneIx) :
    ({ s with pending := es } : State).lane r l = s.lane r l := rfl
@[simp] theorem withPending_c (s : State) (es : List HostEvent) (r : Reg) (k : InstIx) :
    ({ s with pending := es } : State).c r k = s.c r k := rfl
@[simp] theorem withPending_scalar (s : State) (es : List HostEvent) (i : SReg) :
    ({ s with pending := es } : State).scalar i = s.scalar i := rfl
@[simp] theorem withPending_portWord (s : State) (es : List HostEvent) (a : BitVec 8) :
    ({ s with pending := es } : State).portWord a = s.portWord a := rfl

end Sys2Proof.Machine
end

