-- ==== Sys2Proof/Laws/Ops.lean ====
section
/-! SUPPORT. For each shared operation of Machine/Ops.lean, what it can do: reading after writing, the writes of a command,
and the two ways a command ends. -/

namespace Sys2Proof.Machine

/-! ## Lanes, scalars and complex values -/

theorem lane_setLane (s : State) (r r' : Reg) (l l' : LaneIx) (v : Word) :
    (s.setLane r l v).lane r' l' = if r = r' ∧ l = l' then v else s.lane r' l' := by
  simp only [State.lane, State.setLane]
  by_cases h : r = r'
  · subst h; simp [Vector.getElem_set, Fin.ext_iff]
  · have h' : r.val ≠ r'.val := fun e => h (Fin.ext e)
    simp [h, h']

theorem scalar_setScalar (s : State) (i j : SReg) (v : Word) :
    (s.setScalar i v).scalar j = if i = j then v else s.scalar j := by
  simp [State.scalar, State.setScalar, Vector.getElem_set, Fin.ext_iff]

@[simp] theorem lane_setScalar (s : State) (i : SReg) (v : Word) (r : Reg) (l : LaneIx) :
    (s.setScalar i v).lane r l = s.lane r l := rfl

@[simp] theorem scalar_setLane (s : State) (r : Reg) (l : LaneIx) (v : Word) (i : SReg) :
    (s.setLane r l v).scalar i = s.scalar i := rfl

@[simp] theorem scalar_setC (s : State) (r : Reg) (k : InstIx) (v : Cplx) (i : SReg) :
    (s.setC r k v).scalar i = s.scalar i := rfl

/-- Every lane is the real or the imaginary lane of one instance. -/
theorem lane_of_instance (l : LaneIx) : ∃ k : InstIx, l = reLane k ∨ l = imLane k := by
  revert l; decide

theorem reLane_inj {k k' : InstIx} : reLane k = reLane k' ↔ k = k' := by
  simp only [reLane, Fin.ext_iff]; omega

theorem imLane_inj {k k' : InstIx} : imLane k = imLane k' ↔ k = k' := by
  simp only [imLane, Fin.ext_iff]; omega

theorem reLane_ne_imLane (k k' : InstIx) : reLane k ≠ imLane k' := by
  simp only [reLane, imLane, ne_eq, Fin.ext_iff]; omega

theorem lane_setC (s : State) (r r' : Reg) (k : InstIx) (l : LaneIx) (v : Cplx) :
    (s.setC r k v).lane r' l =
      if r = r' ∧ imLane k = l then v.im else if r = r' ∧ reLane k = l then v.re else s.lane r' l := by
  simp only [State.setC, lane_setLane]

theorem c_setC (s : State) (r r' : Reg) (k k' : InstIx) (v : Cplx) :
    (s.setC r k v).c r' k' = if r = r' ∧ k = k' then v else s.c r' k' := by
  simp only [State.c, lane_setC, reLane_inj, imLane_inj, reLane_ne_imLane, (reLane_ne_imLane _ _).symm, and_false, if_false]
  split <;> rfl

/-! ## The writes of a command -/

@[simp] theorem applyWrites_nil (s : State) : s.applyWrites [] = s := rfl

@[simp] theorem applyWrites_cons (s : State) (w : CWrite) (ws : List CWrite) :
    s.applyWrites (w :: ws) = (s.setC w.reg w.inst w.val).applyWrites ws := rfl

@[simp] theorem applyWrites_s (ws : List CWrite) (s : State) : (s.applyWrites ws).s = s.s := by
  induction ws generalizing s with
  | nil => rfl
  | cons w ws ih => simp [ih]

@[simp] theorem applyWrites_pending (ws : List CWrite) (s : State) : (s.applyWrites ws).pending = s.pending := by
  induction ws generalizing s with
  | nil => rfl
  | cons w ws ih => simp [ih]

@[simp] theorem applyWrites_replies (ws : List CWrite) (s : State) : (s.applyWrites ws).replies = s.replies := by
  induction ws generalizing s with
  | nil => rfl
  | cons w ws ih => simp [ih]

@[simp] theorem applyWrites_freeCount (ws : List CWrite) (s : State) : (s.applyWrites ws).freeCount = s.freeCount := by
  induction ws generalizing s with
  | nil => rfl
  | cons w ws ih => simp [ih]

@[simp] theorem applyWrites_scalar (ws : List CWrite) (s : State) (i : SReg) :
    (s.applyWrites ws).scalar i = s.scalar i := by
  simp [State.scalar]

/-- An instance that no write names keeps its value. -/
theorem c_applyWrites_of_not_named (ws : List CWrite) (s : State) (r : Reg) (k : InstIx)
    (h : ∀ w ∈ ws, ¬(w.reg = r ∧ w.inst = k)) : (s.applyWrites ws).c r k = s.c r k := by
  induction ws generalizing s with
  | nil => rfl
  | cons w ws ih =>
    rw [applyWrites_cons, ih _ fun v hv => h v (List.mem_cons_of_mem _ hv), c_setC,
      if_neg (h w List.mem_cons_self)]

/-- A named instance takes the written value, where the writes that name it agree. -/
theorem c_applyWrites_of_named (ws : List CWrite) (s : State) (r : Reg) (k : InstIx) (x : Cplx)
    (hw : ∃ w ∈ ws, w.reg = r ∧ w.inst = k) (h : ∀ w ∈ ws, w.reg = r → w.inst = k → w.val = x) :
    (s.applyWrites ws).c r k = x := by
  induction ws generalizing s with
  | nil => obtain ⟨w, hw, _⟩ := hw; cases hw
  | cons v ws ih =>
    rw [applyWrites_cons]
    by_cases hin : ∃ u ∈ ws, u.reg = r ∧ u.inst = k
    · exact ih _ hin fun w hw => h w (List.mem_cons_of_mem _ hw)
    · rw [c_applyWrites_of_not_named _ _ _ _ fun u hu hh => hin ⟨u, hu, hh⟩]
      obtain ⟨w, hw, hr, hk⟩ := hw
      rcases List.mem_cons.mp hw with rfl | hmem
      · rw [c_setC, if_pos ⟨hr, hk⟩, h w List.mem_cons_self hr hk]
      · exact absurd ⟨w, hmem, hr, hk⟩ hin

/-- The lanes of a state are those of its instances. -/
theorem lane_reLane (s : State) (r : Reg) (k : InstIx) : s.lane r (reLane k) = (s.c r k).re := rfl

theorem lane_imLane (s : State) (r : Reg) (k : InstIx) : s.lane r (imLane k) = (s.c r k).im := rfl

/-- An instance whose two lanes agree in two states agrees, and conversely. -/
theorem lane_eq_of_c_eq {s t : State} {r : Reg} (h : ∀ k, s.c r k = t.c r k) (l : LaneIx) : s.lane r l = t.lane r l := by
  obtain ⟨k, rfl | rfl⟩ := lane_of_instance l
  · exact congrArg Cplx.re (h k)
  · exact congrArg Cplx.im (h k)

/-! ## How a command ends -/

theorem complete_eq (s : State) (ws : List CWrite) :
    s.complete ws = .next ((s.applyWrites ws).answer (.completion 0)) := rfl

theorem reject_eq (s : State) (r : Reject) : s.reject r = .next (s.answer (.completion (rejectCode r))) := rfl

/-- Everything a command can do: write some complex values and return 0, or be rejected with code 4 and write nothing. -/
theorem exec_cases (i : Instr) (s : State) :
    (∃ ws, exec i s = .next ((s.applyWrites ws).answer (.completion 0))) ∨
      exec i s = .next (s.answer (.completion 4)) := by
  have ite_case (b : Bool) (ws : List CWrite) :
      (∃ ws', (if b then s.complete ws else s.reject .regRange) = .next ((s.applyWrites ws').answer (.completion 0))) ∨
        (if b then s.complete ws else s.reject .regRange) = .next (s.answer (.completion 4)) := by
    cases b
    · exact .inr rfl
    · exact .inl ⟨ws, rfl⟩
  cases i with
  | caddW1 | caddW2 | caddW4 | csubW1 | csubW2 | csubW4 | cmulW1 | cmulW2 | cmulW4 | cdivW1 | cdivW2 | cdivW4 =>
    exact .inl ⟨_, rfl⟩
  | packW1 | packW2 | packW4 | unpackW1 | unpackW2 | unpackW4 | zfW1 | zfW2 | zfW4 | mmseW1 | mmseW2 | mmseW4 =>
    exact ite_case _ _

/-! ## The port -/

/-- Reading a word address after an accepted write gives the written word there and the old word elsewhere. -/
theorem portWord_setPortWord {s t : State} {a : BitVec 8} {v : Word} (h : s.setPortWord a v = some t) (b : BitVec 8) :
    t.portWord b = if b = a then some v else s.portWord b := by
  unfold State.setPortWord at h
  have reg_lane : ∀ x y : BitVec 8, x ≤ 0x7F#8 → y ≤ 0x7F#8 → portReg x = portReg y → portLane x = portLane y → x = y := by
    intro x y hx hy h1 h2
    simp only [portReg, portLane, Fin.ext_iff, BitVec.val_toFin, BitVec.extractLsb'_toNat, Nat.shiftRight_eq_div_pow] at h1 h2
    rw [BitVec.le_def] at hx hy
    apply BitVec.eq_of_toNat_eq
    simp at hx hy
    omega
  have scalar_ix : ∀ x y : BitVec 8, ¬ x ≤ 0x7F#8 → x ≤ 0x83#8 → ¬ y ≤ 0x7F#8 → y ≤ 0x83#8 →
      portScalar x = portScalar y → x = y := by
    intro x y hx hx' hy hy' h1
    simp only [portScalar, Fin.ext_iff, BitVec.val_toFin, BitVec.extractLsb'_toNat, Nat.shiftRight_eq_div_pow] at h1
    rw [BitVec.le_def] at hx hx' hy hy'
    apply BitVec.eq_of_toNat_eq
    simp at hx hx' hy hy'
    omega
  split at h
  · next ha =>
    cases h
    unfold State.portWord
    by_cases hb : b ≤ 0x7F#8
    · simp only [hb, if_true, lane_setLane]
      by_cases e : b = a
      · subst e; simp
      · rw [if_neg e, if_neg]
        intro ⟨h1, h2⟩; exact e (reg_lane b a hb ha h1.symm h2.symm)
    · have e : b ≠ a := fun e => hb (e ▸ ha)
      simp [hb, e]
  · next ha =>
    split at h
    · next ha' =>
      cases h
      unfold State.portWord
      by_cases hb : b ≤ 0x7F#8
      · have e : b ≠ a := fun e => ha (e ▸ hb)
        simp [hb, e]
      · by_cases hb' : b ≤ 0x83#8
        · simp only [hb, hb', if_true, if_false, scalar_setScalar]
          by_cases e : b = a
          · subst e; simp
          · rw [if_neg e, if_neg]
            intro h1; exact e (scalar_ix b a hb hb' ha ha' h1.symm)
        · have e : b ≠ a := fun e => hb' (e ▸ ha')
          simp [hb, hb', e]
    · cases h

end Sys2Proof.Machine
end

