-- ==== Sys2Proof/Laws/PerInstr.lean ====
section
/-! SUPPORT. Facts about every command as syntax, one lemma per constructor. -/

namespace Sys2Proof.Laws

/-- The operation of a command, read off its name (30_encoding.md R66). -/
def opOf : Instr → Op
  | .caddW1 .. | .caddW2 .. | .caddW4 .. => .cadd
  | .csubW1 .. | .csubW2 .. | .csubW4 .. => .csub
  | .cmulW1 .. | .cmulW2 .. | .cmulW4 .. => .cmul
  | .cdivW1 .. | .cdivW2 .. | .cdivW4 .. => .cdiv
  | .packW1 .. | .packW2 .. | .packW4 .. => .pack
  | .unpackW1 .. | .unpackW2 .. | .unpackW4 .. => .unpack
  | .zfW1 .. | .zfW2 .. | .zfW4 .. => .zf
  | .mmseW1 .. | .mmseW2 .. | .mmseW4 .. => .mmse

/-- The width of a command, read off its name (30_encoding.md R64). -/
def widthOf : Instr → Width
  | .caddW1 .. | .csubW1 .. | .cmulW1 .. | .cdivW1 .. | .packW1 .. | .unpackW1 .. | .zfW1 .. | .mmseW1 .. => .w1
  | .caddW2 .. | .csubW2 .. | .cmulW2 .. | .cdivW2 .. | .packW2 .. | .unpackW2 .. | .zfW2 .. | .mmseW2 .. => .w2
  | .caddW4 .. | .csubW4 .. | .cmulW4 .. | .cdivW4 .. | .packW4 .. | .unpackW4 .. | .zfW4 .. | .mmseW4 .. => .w4

/-- The word of a command carries its operation in `op`, its width in `wc` and zero in `z` (30_encoding.md R62, R64, R66, R67). -/
def EncodeHead.Statement (i : Instr) : Prop :=
  opField (encode i) = opCode (opOf i) ∧ wcField (encode i) = widthCode (widthOf i) ∧ zField (encode i) = 0

theorem EncodeHead.caddW1 (rd ra rb : Reg) : EncodeHead.Statement (.caddW1 rd ra rb) := by
  simp [EncodeHead.Statement, encode, opOf, widthOf]

theorem EncodeHead.caddW2 (rd ra rb : Reg) : EncodeHead.Statement (.caddW2 rd ra rb) := by
  simp [EncodeHead.Statement, encode, opOf, widthOf]

theorem EncodeHead.caddW4 (rd ra rb : Reg) : EncodeHead.Statement (.caddW4 rd ra rb) := by
  simp [EncodeHead.Statement, encode, opOf, widthOf]

theorem EncodeHead.csubW1 (rd ra rb : Reg) : EncodeHead.Statement (.csubW1 rd ra rb) := by
  simp [EncodeHead.Statement, encode, opOf, widthOf]

theorem EncodeHead.csubW2 (rd ra rb : Reg) : EncodeHead.Statement (.csubW2 rd ra rb) := by
  simp [EncodeHead.Statement, encode, opOf, widthOf]

theorem EncodeHead.csubW4 (rd ra rb : Reg) : EncodeHead.Statement (.csubW4 rd ra rb) := by
  simp [EncodeHead.Statement, encode, opOf, widthOf]

theorem EncodeHead.cmulW1 (rd ra rb : Reg) : EncodeHead.Statement (.cmulW1 rd ra rb) := by
  simp [EncodeHead.Statement, encode, opOf, widthOf]

theorem EncodeHead.cmulW2 (rd ra rb : Reg) : EncodeHead.Statement (.cmulW2 rd ra rb) := by
  simp [EncodeHead.Statement, encode, opOf, widthOf]

theorem EncodeHead.cmulW4 (rd ra rb : Reg) : EncodeHead.Statement (.cmulW4 rd ra rb) := by
  simp [EncodeHead.Statement, encode, opOf, widthOf]

theorem EncodeHead.cdivW1 (rd ra rb : Reg) : EncodeHead.Statement (.cdivW1 rd ra rb) := by
  simp [EncodeHead.Statement, encode, opOf, widthOf]

theorem EncodeHead.cdivW2 (rd ra rb : Reg) : EncodeHead.Statement (.cdivW2 rd ra rb) := by
  simp [EncodeHead.Statement, encode, opOf, widthOf]

theorem EncodeHead.cdivW4 (rd ra rb : Reg) : EncodeHead.Statement (.cdivW4 rd ra rb) := by
  simp [EncodeHead.Statement, encode, opOf, widthOf]

theorem EncodeHead.packW1 (rd ra : Reg) : EncodeHead.Statement (.packW1 rd ra) := by
  simp [EncodeHead.Statement, encode, opOf, widthOf]

theorem EncodeHead.packW2 (rd ra : Reg) : EncodeHead.Statement (.packW2 rd ra) := by
  simp [EncodeHead.Statement, encode, opOf, widthOf]

theorem EncodeHead.packW4 (rd ra : Reg) : EncodeHead.Statement (.packW4 rd ra) := by
  simp [EncodeHead.Statement, encode, opOf, widthOf]

theorem EncodeHead.unpackW1 (rd ra : Reg) : EncodeHead.Statement (.unpackW1 rd ra) := by
  simp [EncodeHead.Statement, encode, opOf, widthOf]

theorem EncodeHead.unpackW2 (rd ra : Reg) : EncodeHead.Statement (.unpackW2 rd ra) := by
  simp [EncodeHead.Statement, encode, opOf, widthOf]

theorem EncodeHead.unpackW4 (rd ra : Reg) : EncodeHead.Statement (.unpackW4 rd ra) := by
  simp [EncodeHead.Statement, encode, opOf, widthOf]

theorem EncodeHead.zfW1 (rd ra rb : Reg) (sg : SReg) : EncodeHead.Statement (.zfW1 rd ra rb sg) := by
  simp [EncodeHead.Statement, encode, opOf, widthOf]

theorem EncodeHead.zfW2 (rd ra rb : Reg) (sg : SReg) : EncodeHead.Statement (.zfW2 rd ra rb sg) := by
  simp [EncodeHead.Statement, encode, opOf, widthOf]

theorem EncodeHead.zfW4 (rd ra rb : Reg) (sg : SReg) : EncodeHead.Statement (.zfW4 rd ra rb sg) := by
  simp [EncodeHead.Statement, encode, opOf, widthOf]

theorem EncodeHead.mmseW1 (rd ra rb : Reg) (sg sn : SReg) : EncodeHead.Statement (.mmseW1 rd ra rb sg sn) := by
  simp [EncodeHead.Statement, encode, opOf, widthOf]

theorem EncodeHead.mmseW2 (rd ra rb : Reg) (sg sn : SReg) : EncodeHead.Statement (.mmseW2 rd ra rb sg sn) := by
  simp [EncodeHead.Statement, encode, opOf, widthOf]

theorem EncodeHead.mmseW4 (rd ra rb : Reg) (sg sn : SReg) : EncodeHead.Statement (.mmseW4 rd ra rb sg sn) := by
  simp [EncodeHead.Statement, encode, opOf, widthOf]

end Sys2Proof.Laws
end

