-- ==== Sys2Proof/Laws/Results.lean ====
section
/-! SUPPORT. For each operand shape shared by the commands, every complex value of the packed file after its writes, and
what each command answers in those terms. -/

namespace Sys2Proof.Machine

theorem mem_instances {w : Width} {k : InstIx} : k ∈ instances w ↔ k.val < w.count := by
  cases w <;> revert k <;> decide

theorem groupReg_val {r : Reg} {k : Nat} (h : r.val + k ≤ 15) : (groupReg r k).val = r.val + k := by
  simp only [groupReg]; omega

@[simp] theorem groupReg_zero (r : Reg) : groupReg r 0 = r := by
  apply Fin.ext; simp only [groupReg]; omega

theorem groupReg_eq {r q : Reg} {k : Nat} (h : q.val = r.val + k) : groupReg r k = q := by
  apply Fin.ext; rw [groupReg_val (by omega), h]

theorem groupOk_iff {r : Reg} {n : Nat} : groupOk r n = true ↔ r.val + n - 1 ≤ 15 := by
  simp [groupOk]

theorem solverOk_iff {rd ra rb : Reg} :
    solverOk rd ra rb = true ↔ rd.val + 1 ≤ 15 ∧ ra.val + 3 ≤ 15 ∧ rb.val + 1 ≤ 15 := by
  simp only [solverOk, Bool.and_eq_true, groupOk_iff]; omega

theorem c_binaryWrites (f : Cplx → Cplx → Cplx) (w : Width) (rd ra rb : Reg) (s : State) (r : Reg) (k : InstIx) :
    (s.applyWrites (binaryWrites f w rd ra rb s)).c r k =
      if r = rd ∧ k.val < w.count then f (s.c ra k) (s.c rb k) else s.c r k := by
  split
  · next h =>
    obtain ⟨rfl, hk⟩ := h
    apply c_applyWrites_of_named
    · exact ⟨_, List.mem_map.mpr ⟨k, mem_instances.mpr hk, rfl⟩, rfl, rfl⟩
    · intro v hv _ hvk
      obtain ⟨j, _, rfl⟩ := List.mem_map.mp hv
      obtain rfl : j = k := hvk
      rfl
  · next h =>
    apply c_applyWrites_of_not_named
    rintro v hv ⟨hr, hk⟩
    obtain ⟨j, hj, rfl⟩ := List.mem_map.mp hv
    obtain rfl : j = k := hk
    exact h ⟨hr.symm, mem_instances.mp hj⟩

theorem c_packWrites (w : Width) (rd ra : Reg) (s : State) (r : Reg) (k : InstIx) :
    (s.applyWrites (packWrites w rd ra s)).c r k =
      if r = rd ∧ k.val < w.count then s.c (groupReg ra k.val) 0 else s.c r k := by
  split
  · next h =>
    obtain ⟨rfl, hk⟩ := h
    apply c_applyWrites_of_named
    · exact ⟨_, List.mem_map.mpr ⟨k, mem_instances.mpr hk, rfl⟩, rfl, rfl⟩
    · intro v hv _ hvk
      obtain ⟨j, _, rfl⟩ := List.mem_map.mp hv
      obtain rfl : j = k := hvk
      rfl
  · next h =>
    apply c_applyWrites_of_not_named
    rintro v hv ⟨hr, hk⟩
    obtain ⟨j, hj, rfl⟩ := List.mem_map.mp hv
    obtain rfl : j = k := hk
    exact h ⟨hr.symm, mem_instances.mp hj⟩

/-- A register of the destination group of UNPACK receives its instance in `c[0]`. -/
theorem c_unpackWrites_of_named (w : Width) (rd ra : Reg) (s : State) (k : InstIx) (q : Reg)
    (hf : rd.val + w.count - 1 ≤ 15) (hk : k.val < w.count) (hq : q.val = rd.val + k.val) :
    (s.applyWrites (unpackWrites w rd ra s)).c q 0 = s.c ra k := by
  apply c_applyWrites_of_named
  · exact ⟨_, List.mem_map.mpr ⟨k, mem_instances.mpr hk, rfl⟩, groupReg_eq hq, rfl⟩
  · intro v hv hvr _
    obtain ⟨j, hj, rfl⟩ := List.mem_map.mp hv
    have hj' := mem_instances.mp hj
    have hval : (groupReg rd j.val).val = q.val := congrArg Fin.val hvr
    rw [groupReg_val (by omega), hq] at hval
    obtain rfl : j = k := Fin.ext (by omega)
    rfl

/-- Everything else keeps its value under UNPACK. -/
theorem c_unpackWrites_of_not_named (w : Width) (rd ra : Reg) (s : State) (r : Reg) (k : InstIx)
    (hf : rd.val + w.count - 1 ≤ 15) (h : k ≠ 0 ∨ ¬(rd.val ≤ r.val ∧ r.val < rd.val + w.count)) :
    (s.applyWrites (unpackWrites w rd ra s)).c r k = s.c r k := by
  apply c_applyWrites_of_not_named
  rintro v hv ⟨hr, hk⟩
  obtain ⟨j, hj, rfl⟩ := List.mem_map.mp hv
  have hj' := mem_instances.mp hj
  rcases h with h | h
  · exact h hk.symm
  · apply h
    have hval : (groupReg rd j.val).val = r.val := congrArg Fin.val hr
    rw [groupReg_val (by omega)] at hval
    omega

theorem c_solverWrites (x : InstIx → Cplx × Cplx) (w : Width) (rd : Reg) (s : State) (r : Reg) (k : InstIx)
    (hf : rd.val + 1 ≤ 15) :
    (s.applyWrites (solverWrites x w rd)).c r k =
      if r = rd ∧ k.val < w.count then (x k).1
      else if r = groupReg rd 1 ∧ k.val < w.count then (x k).2 else s.c r k := by
  have hne : groupReg rd 1 ≠ rd := fun e => by
    have := congrArg Fin.val e
    rw [groupReg_val hf] at this
    omega
  split
  · next h =>
    obtain ⟨rfl, hk⟩ := h
    apply c_applyWrites_of_named
    · exact ⟨_, List.mem_append_left _ (List.mem_map.mpr ⟨k, mem_instances.mpr hk, rfl⟩), rfl, rfl⟩
    · intro v hv hvr hvk
      rcases List.mem_append.mp hv with hv | hv <;> obtain ⟨j, _, rfl⟩ := List.mem_map.mp hv
      · obtain rfl : j = k := hvk
        rfl
      · exact absurd hvr hne
  · next h =>
    split
    · next h' =>
      obtain ⟨rfl, hk⟩ := h'
      apply c_applyWrites_of_named
      · exact ⟨_, List.mem_append_right _ (List.mem_map.mpr ⟨k, mem_instances.mpr hk, rfl⟩), rfl, rfl⟩
      · intro v hv hvr hvk
        rcases List.mem_append.mp hv with hv | hv <;> obtain ⟨j, _, rfl⟩ := List.mem_map.mp hv
        · exact absurd hvr.symm hne
        · obtain rfl : j = k := hvk
          rfl
    · next h' =>
      apply c_applyWrites_of_not_named
      rintro v hv ⟨hr, hk⟩
      rcases List.mem_append.mp hv with hv | hv <;> obtain ⟨j, hj, rfl⟩ := List.mem_map.mp hv <;>
        obtain rfl : j = k := hk
      · exact h ⟨hr.symm, mem_instances.mp hj⟩
      · exact h' ⟨hr.symm, mem_instances.mp hj⟩

/-! ## What a command answers at every width -/

theorem exec_cadd (w : Width) (rd ra rb : Reg) (s : State) :
    exec (.cadd w rd ra rb) s = s.complete (binaryWrites cadd w rd ra rb s) := by cases w <;> rfl

theorem exec_csub (w : Width) (rd ra rb : Reg) (s : State) :
    exec (.csub w rd ra rb) s = s.complete (binaryWrites csub w rd ra rb s) := by cases w <;> rfl

theorem exec_cmul (w : Width) (rd ra rb : Reg) (s : State) :
    exec (.cmul w rd ra rb) s = s.complete (binaryWrites cmul w rd ra rb s) := by cases w <;> rfl

theorem exec_cdiv (w : Width) (rd ra rb : Reg) (s : State) :
    exec (.cdiv w rd ra rb) s = s.complete (binaryWrites cdiv w rd ra rb s) := by cases w <;> rfl

theorem exec_pack (w : Width) (rd ra : Reg) (s : State) :
    exec (.pack w rd ra) s = if groupOk ra w.count then s.complete (packWrites w rd ra s) else s.reject .regRange := by
  cases w <;> rfl

theorem exec_unpack (w : Width) (rd ra : Reg) (s : State) :
    exec (.unpack w rd ra) s = if groupOk rd w.count then s.complete (unpackWrites w rd ra s) else s.reject .regRange := by
  cases w <;> rfl

theorem exec_zf (w : Width) (rd ra rb : Reg) (sg : SReg) (s : State) :
    exec (.zf w rd ra rb sg) s =
      if solverOk rd ra rb then s.complete (solverWrites (zfResult ra rb sg s) w rd) else s.reject .regRange := by
  cases w <;> rfl

theorem exec_mmse (w : Width) (rd ra rb : Reg) (sg sn : SReg) (s : State) :
    exec (.mmse w rd ra rb sg sn) s =
      if solverOk rd ra rb then s.complete (solverWrites (mmseResult ra rb sg sn s) w rd) else s.reject .regRange := by
  cases w <;> rfl

end Sys2Proof.Machine
end

