-- ==== Sys2Proof/Tests/Slice0.lean ====
section
/-! SUPPORT. The model's own tests: the well-formedness checks refuse, every constructor decodes from a word written field by
field from 30_encoding.md R62, one step per command on a vector of 95_test_vectors.md, and a witness for the hypotheses of each
statement. Expected values are the spec's. -/

namespace Sys2Proof.Tests

-- One theorem after another: checked at once, their threads' stacks pass the memory limit of the check.
set_option Elab.async false

open Sys2Proof.Machine

/-! ## Helpers -/

/-- The reset state with some registers of P and S filled. -/
def filled (ps : List (Reg × PackedReg)) (ss : List (SReg × Word)) : State :=
  ss.foldl (fun s x => s.setScalar x.1 x.2)
    (ps.foldl (fun s x => { s with p := s.p.set x.1.val x.2 }) State.reset)

/-- The eight lanes of a register after a step. -/
def row (o : StepOutcome) (r : Reg) : List Word :=
  match o with
  | .next t => (t.p[r.val]).toList
  | .fault _ => []
  | .refused _ => []

/-- The replies after a step. -/
def answers (o : StepOutcome) : List Reply :=
  match o with
  | .next t => t.replies
  | .fault _ => []
  | .refused _ => []

/-- A command word from its fields (30_encoding.md R62). -/
def word (op : BitVec 4) (wc : BitVec 2) (rd ra rb : BitVec 4) (sg sn : BitVec 2) (z : BitVec 10) : Word :=
  op ++ wc ++ rd ++ ra ++ rb ++ sg ++ sn ++ z

/-! ## Well-formedness refuses (30_encoding.md R68) -/

theorem test_wf_packW2_refused : (Instr.packW2 0 15).wf = false := by decide
theorem test_wf_packW4_refused : (Instr.packW4 0 13).wf = false := by decide
theorem test_wf_unpackW2_refused : (Instr.unpackW2 15 0).wf = false := by decide
theorem test_wf_unpackW4_refused : (Instr.unpackW4 13 0).wf = false := by decide
theorem test_wf_zf_rd_refused : (Instr.zfW1 15 0 4 0).wf = false := by decide
theorem test_wf_zf_ra_refused : (Instr.zfW2 6 13 4 0).wf = false := by decide
theorem test_wf_zf_rb_refused : (Instr.zfW4 6 0 15 0).wf = false := by decide
theorem test_wf_mmse_rd_refused : (Instr.mmseW1 15 0 4 0 1).wf = false := by decide
theorem test_wf_mmse_ra_refused : (Instr.mmseW2 6 13 4 0 1).wf = false := by decide
theorem test_wf_mmse_rb_refused : (Instr.mmseW4 6 0 15 0 1).wf = false := by decide
theorem test_wf_limits_accepted :
    (Instr.packW4 0 12).wf && (Instr.unpackW4 12 0).wf && (Instr.zfW4 14 12 14 3).wf && (Instr.packW1 15 15).wf = true := by
  decide

/-! ## Every constructor decodes from a word written from its encoding (30_encoding.md R62, R64, R66) -/

theorem test_decode_caddW1 :
    decode (word 0x1 0 2 9 5 0 0 0) = .ok (.caddW1 2 9 5) := by decide
theorem test_decode_caddW2 :
    decode (word 0x1 1 14 12 14 0 0 0) = .ok (.caddW2 14 12 14) := by decide
theorem test_decode_caddW4 :
    decode (word 0x1 2 10 3 6 0 0 0) = .ok (.caddW4 10 3 6) := by decide
theorem test_decode_csubW1 :
    decode (word 0x2 0 2 9 5 0 0 0) = .ok (.csubW1 2 9 5) := by decide
theorem test_decode_csubW2 :
    decode (word 0x2 1 14 12 14 0 0 0) = .ok (.csubW2 14 12 14) := by decide
theorem test_decode_csubW4 :
    decode (word 0x2 2 10 3 6 0 0 0) = .ok (.csubW4 10 3 6) := by decide
theorem test_decode_cmulW1 :
    decode (word 0x3 0 2 9 5 0 0 0) = .ok (.cmulW1 2 9 5) := by decide
theorem test_decode_cmulW2 :
    decode (word 0x3 1 14 12 14 0 0 0) = .ok (.cmulW2 14 12 14) := by decide
theorem test_decode_cmulW4 :
    decode (word 0x3 2 10 3 6 0 0 0) = .ok (.cmulW4 10 3 6) := by decide
theorem test_decode_cdivW1 :
    decode (word 0x4 0 2 9 5 0 0 0) = .ok (.cdivW1 2 9 5) := by decide
theorem test_decode_cdivW2 :
    decode (word 0x4 1 14 12 14 0 0 0) = .ok (.cdivW2 14 12 14) := by decide
theorem test_decode_cdivW4 :
    decode (word 0x4 2 10 3 6 0 0 0) = .ok (.cdivW4 10 3 6) := by decide
theorem test_decode_packW1 :
    decode (word 0x5 0 2 9 0 0 0 0) = .ok (.packW1 2 9) := by decide
theorem test_decode_packW2 :
    decode (word 0x5 1 14 12 0 0 0 0) = .ok (.packW2 14 12) := by decide
theorem test_decode_packW4 :
    decode (word 0x5 2 10 3 0 0 0 0) = .ok (.packW4 10 3) := by decide
theorem test_decode_unpackW1 :
    decode (word 0x6 0 2 9 0 0 0 0) = .ok (.unpackW1 2 9) := by decide
theorem test_decode_unpackW2 :
    decode (word 0x6 1 14 12 0 0 0 0) = .ok (.unpackW2 14 12) := by decide
theorem test_decode_unpackW4 :
    decode (word 0x6 2 10 3 0 0 0 0) = .ok (.unpackW4 10 3) := by decide
theorem test_decode_zfW1 :
    decode (word 0x8 0 2 9 5 1 0 0) = .ok (.zfW1 2 9 5 1) := by decide
theorem test_decode_zfW2 :
    decode (word 0x8 1 14 12 14 3 0 0) = .ok (.zfW2 14 12 14 3) := by decide
theorem test_decode_zfW4 :
    decode (word 0x8 2 10 3 6 2 0 0) = .ok (.zfW4 10 3 6 2) := by decide
theorem test_decode_mmseW1 :
    decode (word 0x9 0 2 9 5 1 2 0) = .ok (.mmseW1 2 9 5 1 2) := by decide
theorem test_decode_mmseW2 :
    decode (word 0x9 1 14 12 14 3 1 0) = .ok (.mmseW2 14 12 14 3 1) := by decide
theorem test_decode_mmseW4 :
    decode (word 0x9 2 10 3 6 2 3 0) = .ok (.mmseW4 10 3 6 2 3) := by decide

/-- The table's numbering of a row's bits is that of the command word (30_encoding.md R74, CDIV.W4 P15, P15, P15). -/
theorem test_decodeTableWord : decodeTableWord 32 0x4BFFC000 = some (.cdivW4 15 15 15) := by decide

/-- Bits above the width the table gives are zero. -/
theorem test_decodeTableWord_wide : decodeTableWord 64 0x14BFFC000 = none := by decide

/-! ## Rejections, with their priority (95_test_vectors.md section 5) -/

theorem test_reject_zero_word : decode 0x00000000 = .error .illegalOpcode := by decide
theorem test_reject_all_ones : decode 0xFFFFFFFF = .error .illegalOpcode := by decide
theorem test_reject_opcode_first : decode 0xFC000001 = .error .illegalOpcode := by decide
theorem test_reject_width_first : decode 0x5C000001 = .error .illegalWidth := by decide
theorem test_reject_reserved_first : decode 0x58380001 = .error .reservedNonzero := by decide
theorem test_reject_range : decode 0x58380000 = .error .regRange := by decide
theorem test_reject_cadd_sn : decode 0x10804400 = .error .reservedNonzero := by decide
theorem test_reject_pack_rb : decode 0x56004000 = .error .reservedNonzero := by decide
theorem test_reject_zf_sn : decode 0x81810400 = .error .reservedNonzero := by decide
theorem test_reject_mmse_rd : decode 0x9BF3BC00 = .error .regRange := by decide

/-! ## One step per command -/

/-- P0, P1 and P2 of 95_test_vectors.md section 2. -/
def arith : State :=
  filled [(0, #v[0x3F800000, 0x40000000, 0x3DCCCCCD, 0x3E4CCCCD, 0x3F800000, 0x40000000, 0x40400000, 0x40800000]),
    (1, #v[0x40400000, 0x40800000, 0x3E99999A, 0xBECCCCCD, 0x00000000, 0x00000000, 0x40400000, 0x40800000]),
    (2, Vector.replicate 8 0xDEADBEEF)] []

theorem test_caddW1 : row (exec (.caddW1 2 0 1) arith) 2 =
    [0x40800000, 0x40C00000, 0xDEADBEEF, 0xDEADBEEF, 0xDEADBEEF, 0xDEADBEEF, 0xDEADBEEF, 0xDEADBEEF] := by decide +kernel
theorem test_caddW2 : row (exec (.caddW2 2 0 1) arith) 2 =
    [0x40800000, 0x40C00000, 0x3ECCCCCD, 0xBE4CCCCD, 0xDEADBEEF, 0xDEADBEEF, 0xDEADBEEF, 0xDEADBEEF] := by decide +kernel
theorem test_caddW4 : row (exec (.caddW4 2 0 1) arith) 2 =
    [0x40800000, 0x40C00000, 0x3ECCCCCD, 0xBE4CCCCD, 0x3F800000, 0x40000000, 0x40C00000, 0x41000000] := by decide +kernel
theorem test_csubW1 : row (exec (.csubW1 2 0 1) arith) 2 =
    [0xC0000000, 0xC0000000, 0xDEADBEEF, 0xDEADBEEF, 0xDEADBEEF, 0xDEADBEEF, 0xDEADBEEF, 0xDEADBEEF] := by decide +kernel
theorem test_csubW2 : row (exec (.csubW2 2 0 1) arith) 2 =
    [0xC0000000, 0xC0000000, 0xBE4CCCCE, 0x3F19999A, 0xDEADBEEF, 0xDEADBEEF, 0xDEADBEEF, 0xDEADBEEF] := by decide +kernel
theorem test_csubW4 : row (exec (.csubW4 2 0 1) arith) 2 =
    [0xC0000000, 0xC0000000, 0xBE4CCCCE, 0x3F19999A, 0x3F800000, 0x40000000, 0x00000000, 0x00000000] := by decide +kernel
theorem test_cmulW1 : row (exec (.cmulW1 2 0 1) arith) 2 =
    [0xC0A00000, 0x41200000, 0xDEADBEEF, 0xDEADBEEF, 0xDEADBEEF, 0xDEADBEEF, 0xDEADBEEF, 0xDEADBEEF] := by decide +kernel
theorem test_cmulW2 : row (exec (.cmulW2 2 0 1) arith) 2 =
    [0xC0A00000, 0x41200000, 0x3DE147AF, 0x3CA3D70A, 0xDEADBEEF, 0xDEADBEEF, 0xDEADBEEF, 0xDEADBEEF] := by decide +kernel
theorem test_cmulW4 : row (exec (.cmulW4 2 0 1) arith) 2 =
    [0xC0A00000, 0x41200000, 0x3DE147AF, 0x3CA3D70A, 0x00000000, 0x00000000, 0xC0E00000, 0x41C00000] := by decide +kernel
theorem test_cdivW1 : row (exec (.cdivW1 2 0 1) arith) 2 =
    [0x3EE147AE, 0x3DA3D70A, 0xDEADBEEF, 0xDEADBEEF, 0xDEADBEEF, 0xDEADBEEF, 0xDEADBEEF, 0xDEADBEEF] := by decide +kernel
theorem test_cdivW2 : row (exec (.cdivW2 2 0 1) arith) 2 =
    [0x3EE147AE, 0x3DA3D70A, 0xBE4CCCCE, 0x3ECCCCCE, 0xDEADBEEF, 0xDEADBEEF, 0xDEADBEEF, 0xDEADBEEF] := by decide +kernel
theorem test_cdivW4 : row (exec (.cdivW4 2 0 1) arith) 2 =
    [0x3EE147AE, 0x3DA3D70A, 0xBE4CCCCE, 0x3ECCCCCE, 0x7FC00000, 0x7FC00000, 0x3F800000, 0x00000000] := by decide +kernel

/-- In place: the square of 1 + 2i (95_test_vectors.md section 2). -/
theorem test_cmul_in_place : (row (exec (.cmulW1 0 0 0) arith) 0).take 2 = [0xC0400000, 0x40800000] := by decide +kernel

/-- Lane l of Pr holds 0xA0000000 + 0x100·r + l (95_test_vectors.md section 3). -/
def marked : State :=
  { State.reset with
    p := Vector.ofFn fun r => Vector.ofFn fun l => BitVec.ofNat 32 (0xA0000000 + 0x100 * r.val + l.val) }

theorem test_packW1 : row (exec (.packW1 5 9) marked) 5 =
    [0xA0000900, 0xA0000901, 0xA0000502, 0xA0000503, 0xA0000504, 0xA0000505, 0xA0000506, 0xA0000507] := by decide +kernel
theorem test_packW2 : row (exec (.packW2 8 0) marked) 8 =
    [0xA0000000, 0xA0000001, 0xA0000100, 0xA0000101, 0xA0000804, 0xA0000805, 0xA0000806, 0xA0000807] := by decide +kernel
theorem test_packW4_in_place : row (exec (.packW4 13 12) marked) 13 =
    [0xA0000C00, 0xA0000C01, 0xA0000D00, 0xA0000D01, 0xA0000E00, 0xA0000E01, 0xA0000F00, 0xA0000F01] := by decide +kernel
theorem test_unpackW1 : row (exec (.unpackW1 5 9) marked) 5 =
    [0xA0000900, 0xA0000901, 0xA0000502, 0xA0000503, 0xA0000504, 0xA0000505, 0xA0000506, 0xA0000507] := by decide +kernel
theorem test_unpackW2 : row (exec (.unpackW2 10 8) marked) 11 =
    [0xA0000802, 0xA0000803, 0xA0000B02, 0xA0000B03, 0xA0000B04, 0xA0000B05, 0xA0000B06, 0xA0000B07] := by decide +kernel
theorem test_unpackW4_in_place : row (exec (.unpackW4 0 0) marked) 3 =
    [0xA0000006, 0xA0000007, 0xA0000302, 0xA0000303, 0xA0000304, 0xA0000305, 0xA0000306, 0xA0000307] := by decide +kernel

/-- The four instances of 95_test_vectors.md section 4.3: H in P0 to P3, y in P4 and P5, g = 1.0 in S0, n0 = 0.25 in S1. -/
def systems : State :=
  filled [(0, #v[0x3F800000, 0x3F800000, 0x3F000000, 0x3E800000, 0x3F800000, 0x00000000, 0x3DCCCCCD, 0x3E4CCCCD]),
    (1, #v[0x40000000, 0x00000000, 0xBFC00000, 0x3F400000, 0x40000000, 0x00000000, 0x3E99999A, 0xBECCCCCD]),
    (2, #v[0x00000000, 0x3F800000, 0x40000000, 0xBF800000, 0x40000000, 0x00000000, 0xBF000000, 0x3F19999A]),
    (3, #v[0x3F800000, 0xBF800000, 0x3E000000, 0x40400000, 0x40800000, 0x00000000, 0x3F333333, 0x3F4CCCCD]),
    (4, #v[0x3F800000, 0x40400000, 0xBFB00000, 0x3FF00000, 0x3F800000, 0x00000000, 0x3F666666, 0xBF800000]),
    (5, #v[0x3F800000, 0x40000000, 0x3FC80000, 0x40CE0000, 0x40000000, 0x00000000, 0x3F8CCCCD, 0x3F99999A]),
    (8, Vector.replicate 8 0xDEADBEEF), (9, Vector.replicate 8 0xDEADBEEF)]
    [(0, 0x3F800000), (1, 0x3E800000)]

theorem test_zfW1_x0 : row (exec (.zfW1 8 0 4 0) systems) 8 =
    [0x3F800000, 0x00000000, 0xDEADBEEF, 0xDEADBEEF, 0xDEADBEEF, 0xDEADBEEF, 0xDEADBEEF, 0xDEADBEEF] := by decide +kernel
theorem test_zfW1_x1 : row (exec (.zfW1 8 0 4 0) systems) 9 =
    [0x00000000, 0x3F800000, 0xDEADBEEF, 0xDEADBEEF, 0xDEADBEEF, 0xDEADBEEF, 0xDEADBEEF, 0xDEADBEEF] := by decide +kernel
theorem test_zfW2_x0 : row (exec (.zfW2 8 0 4 0) systems) 8 =
    [0x3F800000, 0x00000000, 0xBF800000, 0x40000000, 0xDEADBEEF, 0xDEADBEEF, 0xDEADBEEF, 0xDEADBEEF] := by decide +kernel
theorem test_zfW2_x1 : row (exec (.zfW2 8 0 4 0) systems) 9 =
    [0x00000000, 0x3F800000, 0x3F000000, 0xBF000000, 0xDEADBEEF, 0xDEADBEEF, 0xDEADBEEF, 0xDEADBEEF] := by decide +kernel
theorem test_zfW4_x0 : row (exec (.zfW4 8 0 4 0) systems) 8 =
    [0x3F800000, 0x00000000, 0xBF800000, 0x40000000, 0x7FC00000, 0x7FC00000, 0xC00CCCCD, 0x3FB33333] := by decide +kernel
theorem test_zfW4_x1 : row (exec (.zfW4 8 0 4 0) systems) 9 =
    [0x00000000, 0x3F800000, 0x3F000000, 0xBF000000, 0x7FC00000, 0x7FC00000, 0x40333333, 0x3FB33332] := by decide +kernel
theorem test_mmseW1_x0 : row (exec (.mmseW1 8 0 4 0 1) systems) 8 =
    [0x3F6BD48F, 0x3CC6980C, 0xDEADBEEF, 0xDEADBEEF, 0xDEADBEEF, 0xDEADBEEF, 0xDEADBEEF, 0xDEADBEEF] := by decide +kernel
theorem test_mmseW1_x1 : row (exec (.mmseW1 8 0 4 0 1) systems) 9 =
    [0x3CC6980C, 0x3F7E72D0, 0xDEADBEEF, 0xDEADBEEF, 0xDEADBEEF, 0xDEADBEEF, 0xDEADBEEF, 0xDEADBEEF] := by decide +kernel
theorem test_mmseW2_x0 : row (exec (.mmseW2 8 0 4 0 1) systems) 8 =
    [0x3F6BD48F, 0x3CC6980C, 0xBF1CDA4D, 0x3FBBD0B8, 0xDEADBEEF, 0xDEADBEEF, 0xDEADBEEF, 0xDEADBEEF] := by decide +kernel
theorem test_mmseW2_x1 : row (exec (.mmseW2 8 0 4 0 1) systems) 9 =
    [0x3CC6980C, 0x3F7E72D0, 0x3F662A4F, 0xBED4A14C, 0xDEADBEEF, 0xDEADBEEF, 0xDEADBEEF, 0xDEADBEEF] := by decide +kernel
theorem test_mmseW4_x0 : row (exec (.mmseW4 8 0 4 0 1) systems) 8 =
    [0x3F6BD48F, 0x3CC6980C, 0xBF1CDA4D, 0x3FBBD0B8, 0x3E4AC5B4, 0x00000000, 0xBE36DFE3, 0xBEF6B3AF] := by decide +kernel
theorem test_mmseW4_x1 : row (exec (.mmseW4 8 0 4 0 1) systems) 9 =
    [0x3CC6980C, 0x3F7E72D0, 0x3F662A4F, 0xBED4A14C, 0x3ECAC5B4, 0x00000000, 0x3F9AC70B, 0x3E0BFF82] := by decide +kernel

/-! ## Steps -/

/-- From reset, the command presented is taken, run and answered (the host's question on a table row). -/
theorem test_first_command : answers (step (State.reset.withFetchWord 32 0x10804000)) = [.completion 0] := by decide +kernel

/-- A word that is no command is answered with its code (95_test_vectors.md section 5). -/
theorem test_first_rejection : answers (step (State.reset.withFetchWord 32 0x58380000)) = [.completion 4] := by decide +kernel

/-- CAP reads 7 and refuses a write (95_test_vectors.md section 6, rows 1 and 2). -/
theorem test_cap_read : answers (step { State.reset with pending := [.regRead 0x84] }) = [.read .ok 7] := by decide +kernel
theorem test_cap_write : answers (step { State.reset with pending := [.regWrite 0x84 0] }) = [.write .err] := by decide +kernel

/-- Word address 0x2B is P5 lane 3 (95_test_vectors.md section 6, row 7), and a signalling NaN is stored as it is (row 5). -/
theorem test_regWrite_lane : (row (step { State.reset with pending := [.regWrite 0x2B 0x7FA00001] }) 5)[3]? = some 0x7FA00001 := by
  decide +kernel

/-! ## Witnesses: each shows operands and states that meet all hypotheses of a statement together, for a statement of several
clauses at a boundary of each -/

theorem test_witness_DecodeOfEncode : (Instr.mmseW4 14 12 14 3 3).wf = true ∧ (Instr.unpackW4 12 15).wf = true := by decide

theorem test_witness_EncodeOfDecode : decode 0x9BB3BC00 = .ok (.mmseW4 14 12 14 3 3) := by decide

/-- Clause 1 of DecodingPriority: the reserved opcodes at the edges of their ranges. -/
theorem test_witness_DecodingPriority_opcode :
    ∀ w ∈ [0x00000000, 0x0FFFFFFF, 0x70000000, 0x7FFFFFFF, 0xA0000000, 0xFFFFFFFF],
      ¬(w / 2 ^ 28 ∈ [1, 2, 3, 4, 5, 6, 8, 9]) := by decide

/-- Clause 2: `wc` = 3 with the first and the last legal opcode. -/
theorem test_witness_DecodingPriority_width :
    ∀ w ∈ [0x1C804000, 0x9C000000], w / 2 ^ 28 ∈ [1, 2, 3, 4, 5, 6, 8, 9] ∧ w / 2 ^ 26 % 4 = 3 := by decide

/-- Clause 3: the least and the greatest `z`, and each unused field at 1. -/
theorem test_witness_DecodingPriority_reserved :
    (0x10804001 % 2 ^ 10 ≠ 0 ∧ 0x900003FF % 2 ^ 10 ≠ 0) ∧
    (0x40805000 / 2 ^ 28 ∈ [1, 2, 3, 4] ∧ 0x40805000 / 2 ^ 12 % 4 ≠ 0 ∧ 0x40805000 / 2 ^ 26 % 4 ≠ 3) ∧
    (0x66A04000 / 2 ^ 28 ∈ [5, 6] ∧ 0x66A04000 / 2 ^ 14 % 16 ≠ 0 ∧ 0x66A04000 / 2 ^ 26 % 4 ≠ 3) ∧
    (0x81810400 / 2 ^ 28 = 8 ∧ 0x81810400 / 2 ^ 10 % 4 ≠ 0 ∧ 0x81810400 / 2 ^ 26 % 4 ≠ 3) := by decide

/-- Clauses 4 and 5: the last group that fits and the first that does not, with no unused field set. -/
theorem test_witness_DecodingPriority_range :
    (0x58340000 / 2 ^ 18 % 16 + 2 ^ (0x58340000 / 2 ^ 26 % 4) - 1 > 15 ∧ 0x58340000 % 2 ^ 18 = 0) ∧
    (0x58300000 / 2 ^ 18 % 16 + 2 ^ (0x58300000 / 2 ^ 26 % 4) - 1 ≤ 15 ∧ 0x58300000 % 2 ^ 18 = 0) ∧
    (0x6B400000 / 2 ^ 22 % 16 + 2 ^ (0x6B400000 / 2 ^ 26 % 4) - 1 > 15 ∧ 0x6B400000 % 2 ^ 18 = 0) ∧
    (0x83C10000 / 2 ^ 22 % 16 + 1 > 15 ∧ 0x81B50000 / 2 ^ 18 % 16 + 3 > 15 ∧ 0x8183C000 / 2 ^ 14 % 16 + 1 > 15) ∧
    (0x83B38000 / 2 ^ 22 % 16 + 1 ≤ 15 ∧ 0x83B38000 / 2 ^ 18 % 16 + 3 ≤ 15 ∧ 0x83B38000 / 2 ^ 14 % 16 + 1 ≤ 15) := by decide

/-- The clauses of AdditionRule in order: NaN, opposite infinities, an infinity and a finite value, two zeros, exact
cancellation, an inexact sum and one past the overflow threshold, a zero summand. -/
theorem test_witness_AdditionRule :
    isNaN 0x7F800001 = true ∧
    (isInf 0x7F800000 = true ∧ isInf 0xFF800000 = true ∧ signBit 0x7F800000 ≠ signBit 0xFF800000) ∧
    (isInf 0xFF800000 = true ∧ isNaN 0x7F7FFFFF = false ∧ isInf 0x7F7FFFFF = false ∧ isFinite 0x7F7FFFFF = true) ∧
    (isZero 0x80000000 = true ∧ isZero 0x00000000 = true) ∧
    (isFinite 0x00000001 = true ∧ isFinite 0x80000001 = true ∧ isZero 0x00000001 = false ∧
      units 0x00000001 + units 0x80000001 = 0) ∧
    (isFinite 0x7F7FFFFF = true ∧ isFinite 0x73000000 = true ∧ units 0x7F7FFFFF + units 0x73000000 ≠ 0) ∧
    (isZero 0x80000000 = true ∧ isZero 0x7F800000 = false ∧ isNaN 0x7F800000 = false) := by decide +kernel

/-- The clauses of MultiplicationRule in order. -/
theorem test_witness_MultiplicationRule :
    isNaN 0xFFFFFFFF = true ∧
    (isInf 0x7F800000 = true ∧ isZero 0x80000000 = true) ∧
    (isZero 0x00000000 = true ∧ isInf 0xFF800000 = true) ∧
    (isInf 0x7F800000 = true ∧ isNaN 0x80000001 = false ∧ isZero 0x80000001 = false ∧ isNaN 0x7F800000 = false ∧
      isZero 0x7F800000 = false) ∧
    (isZero 0x80000000 = true ∧ isFinite 0x80000000 = true ∧ isFinite 0x7F7FFFFF = true) ∧
    (isFinite 0x7F7FFFFF = true ∧ isFinite 0x80000001 = true ∧ isZero 0x7F7FFFFF = false ∧ isZero 0x80000001 = false) := by
  decide +kernel

/-- The clauses of DivisionRule in order. -/
theorem test_witness_DivisionRule :
    isNaN 0x7FC00000 = true ∧
    (isInf 0x7F800000 = true ∧ isInf 0xFF800000 = true) ∧
    (isZero 0x80000000 = true ∧ isZero 0x00000000 = true) ∧
    (isInf 0xFF800000 = true ∧ isFinite 0x00000000 = true) ∧
    (isFinite 0x7F7FFFFF = true ∧ isInf 0x7F800000 = true) ∧
    (isFinite 0x00000001 = true ∧ isZero 0x00000001 = false ∧ isZero 0x80000000 = true) ∧
    (isZero 0x80000000 = true ∧ isFinite 0x7F7FFFFF = true ∧ isZero 0x7F7FFFFF = false) ∧
    (isFinite 0x7F7FFFFF = true ∧ isFinite 0x80000001 = true ∧ isZero 0x7F7FFFFF = false ∧ isZero 0x80000001 = false) := by
  decide +kernel

theorem test_witness_SubtractionRule :
    isNaN 0x7F800001 = true ∧ isFinite 0x7F7FFFFF = true ∧ isInf 0xFF800000 = true ∧
      (isNaN 0x7F800000 = false ∧ isNaN 0x80000000 = false ∧ (0x7F800000 : Word) ≠ 0x80000000) := by decide

theorem test_witness_NegationFlipsSign : (0 : Nat) < 32 ∧ (31 : Nat) < 32 := by decide

theorem test_witness_PrimitivesReturnCanonicalNaN :
    isNaN (fadd 0x7F800000 0xFF800000) = true ∧ isNaN (fsub 0x7F800000 0x7F800000) = true ∧
      isNaN (fmul 0x7F800000 0x00000000) = true ∧ isNaN (fdiv 0x00000000 0x00000000) = true ∧ isNaN 0xFF800001 = true := by
  decide +kernel

theorem test_witness_SquaredMagnitudeRule : isNaN 0xFF800000 = false ∧ isNaN 0x80000000 = false := by decide

theorem test_witness_DivisionByComplexZero :
    isFinite 0x7F7FFFFF = true ∧ isFinite 0x80000000 = true ∧ isZero 0x00000000 = true ∧ isZero 0x80000000 = true := by decide

theorem test_witness_NaNInMatrixReachesAllResults :
    ∃ h ∈ [(⟨0, 0⟩ : Cplx), ⟨0, 0⟩, ⟨0, 0⟩, ⟨0x3F800000, 0x7F800001⟩], isNaN h.re = true ∨ isNaN h.im = true := by decide

theorem test_witness_IdentityMatrixReturnsInput :
    isFinite 0x7F7FFFFF = true ∧ isFinite 0x80000001 = true ∧ isFinite 0x80000000 = true ∧ isFinite 0x3DCCCCCD = true := by
  decide

/-- Finite parts of the case with the minus zero, and an infinite part. -/
theorem test_witness_RealMatrixGramImaginaryParts :
    (∀ h ∈ [(0xBF800000 : Word), 0x40000000, 0xC0400000, 0x40800000], isFinite h = true) ∧
      ∃ h ∈ [(0xBF800000 : Word), 0x7F800000, 0xC0400000, 0x40800000], isFinite h = false :=
  ⟨List.all_eq_true.mp (by decide), 0x7F800000, .tail _ (.head _), by decide⟩

/-- The off-diagonal of H = [[-1, 2], [-3, 4]], by the pseudocode of 43_mmse_solver.md R120 (log 16): -14 and -0. -/
theorem test_mmseprep_minus_zero :
    (mmseprep ⟨0xBF800000, 0⟩ ⟨0x40000000, 0⟩ ⟨0xC0400000, 0⟩ ⟨0x40800000, 0⟩ ⟨0, 0⟩ ⟨0, 0⟩ 0).a01 = ⟨0xC1600000, 0x80000000⟩ := by
  decide +kernel

/-- A NaN that enters by the last part. -/
theorem test_witness_ConjugateRule :
    isNaN (⟨0x3F800000, 0x3F800000⟩ : Cplx).re = false ∧ isNaN (⟨0x3F800000, 0x7F800001⟩ : Cplx).im = true := by decide

theorem test_witness_GramDeterminantIsReal :
    isFinite 0x80000000 = true ∧ isFinite 0x7F7FFFFF = true ∧ (signBit 0x80000000 && signBit 0x7F7FFFFF) = false ∧
      isFinite (fmul 0x3F800000 0xC0400000) = true := by decide +kernel

/-- The last instance of width 4, the least sum that overflows, and a NaN. -/
theorem test_witness_CaddResult :
    (3 : InstIx).val < Width.w4.count ∧ isNaN 0x7FFFFFFF = true ∧
      (isFinite 0x7F7FFFFF = true ∧ isFinite 0x73000000 = true ∧
        (2 ^ 25 - 1) * 2 ^ 252 ≤ (units 0x7F7FFFFF + units 0x73000000).natAbs) := by decide +kernel

theorem test_witness_CsubResult : (1 : InstIx).val < Width.w2.count := by decide

theorem test_witness_CmulResult : (3 : InstIx).val < Width.w4.count := by decide

theorem test_witness_CdivResult : (0 : InstIx).val < Width.w1.count := by decide

/-- The last group that fits with its last instance, and the first that does not. -/
theorem test_witness_PackResult :
    ((12 : Reg).val + Width.w4.count - 1 ≤ 15 ∧ (3 : InstIx).val < Width.w4.count ∧ (15 : Reg).val = (12 : Reg).val + (3 : InstIx).val) ∧
      (13 : Reg).val + Width.w4.count - 1 > 15 := by decide

theorem test_witness_UnpackResult :
    ((14 : Reg).val + Width.w2.count - 1 ≤ 15 ∧ (1 : InstIx).val < Width.w2.count ∧ (15 : Reg).val = (14 : Reg).val + (1 : InstIx).val) ∧
      (15 : Reg).val + Width.w2.count - 1 > 15 := by decide

/-- Groups at the end of the file, overlapping: rd = 14, ra = 12, rb = 14. -/
theorem test_witness_ZfResult_and_MmseResult :
    (15 : Reg).val = (14 : Reg).val + 1 ∧ (13 : Reg).val = (12 : Reg).val + 1 ∧ (14 : Reg).val = (12 : Reg).val + 2 ∧
      (15 : Reg).val = (12 : Reg).val + 3 ∧ (15 : Reg).val = (14 : Reg).val + 1 ∧ (3 : InstIx).val < Width.w4.count := by decide

theorem test_witness_SolverGroupPastP15 : (15 : Reg).val + 1 > 15 ∧ (13 : Reg).val + 3 > 15 := by decide

/-- CADD.W1 to P2 writes addresses 0x10 and 0x11: 0x12 is outside, and so are the scalars and CAP. -/
theorem test_witness_CommandFrame :
    (∀ a ∈ [(0x12 : BitVec 8), 0x0F, 0x80, 0x84, 0xFF], ∀ r l, destLane (.caddW1 2 0 1) r l = true → a ≠ laneAddr r l) ∧
      (Instr.caddW1 2 0 1).wf = true := by decide +kernel

/-- Two states that differ outside the sources of CADD.W1 P2, P0, P1. -/
theorem test_witness_ResultDependsOnlyOnSources :
    (Instr.caddW1 2 0 1).wf = true ∧
    (∀ r l, srcLane (.caddW1 2 0 1) r l = true → State.reset.lane r l = (State.reset.setLane 0 2 7).lane r l) ∧
    (∀ j, srcScalar (.caddW1 2 0 1) j = true → State.reset.scalar j = (State.reset.setLane 0 2 7).scalar j) := by decide +kernel

theorem test_witness_CommandsWriteCanonicalNaN :
    computes (.caddW1 2 0 1) = true ∧ (Instr.caddW1 2 0 1).wf = true ∧
      ∃ t, exec (.caddW1 2 0 1) (State.reset.setLane 0 0 0xFF800001) = .next t ∧
        destLane (.caddW1 2 0 1) 2 0 = true ∧ isNaN (t.lane 2 0) = true :=
  ⟨by decide, by decide, _, rfl, by decide, by decide +kernel⟩

/-- Instance 3 of P0 and P1 of `arith`, in instance 0 of P4 and P5 of another state. -/
theorem test_witness_ArithmeticWidthEquivalence :
    Instr.csub ∈ [Instr.cadd, Instr.csub, Instr.cmul, Instr.cdiv] ∧ (3 : InstIx).val < Width.w4.count ∧
      ((arith.setC 4 0 (arith.c 0 3)).setC 5 0 (arith.c 1 3)).c 4 0 = arith.c 0 3 ∧
      ((arith.setC 4 0 (arith.c 0 3)).setC 5 0 (arith.c 1 3)).c 5 0 = arith.c 1 3 := by
  refine ⟨by simp, by decide, by decide +kernel, by decide +kernel⟩

/-- Instance 0 at width 4 against width 1 on the same state. -/
theorem test_witness_SolverWidthEquivalence :
    (0 : InstIx).val < Width.w4.count ∧ (Instr.mmse .w4 14 10 8 3 2).wf = true ∧ (Instr.mmse .w1 14 10 8 3 2).wf = true ∧
      (∀ (j : Nat) (q q' : Reg), j < 4 → q.val = (10 : Reg).val + j → q'.val = (10 : Reg).val + j →
        systems.c q' 0 = systems.c q 0) ∧
      (∀ (j : Nat) (q q' : Reg), j < 2 → q.val = (8 : Reg).val + j → q'.val = (8 : Reg).val + j →
        systems.c q' 0 = systems.c q 0) := by
  refine ⟨by decide, by decide, by decide, ?_, ?_⟩ <;>
    · intro j q q' _ h h'
      rw [show q' = q from Fin.ext (h'.trans h.symm)]

/-- The exchange of instances 0 and 1 at width 2, on the reset state, whose instances are all equal. -/
theorem test_witness_LaneOrderPreserved :
    (Instr.zf .w2 6 0 4 0).wf = true ∧ (∀ k, (Equiv.swap (0 : InstIx) 1 k).val < Width.w2.count ↔ k.val < Width.w2.count) ∧
      (∀ r k, State.reset.c r k = State.reset.c r (Equiv.swap 0 1 k)) := by
  refine ⟨by decide, by decide, fun r k => ?_⟩
  have h : ∀ l, State.reset.lane r l = 0 := fun l => by simp [State.reset, State.lane]
  simp [State.c, h]

theorem test_witness_PackThenUnpack :
    (12 : Reg).val + Width.w4.count - 1 ≤ 15 ∧ (3 : InstIx).val < Width.w4.count ∧
      (15 : Reg).val = (12 : Reg).val + (3 : InstIx).val := by decide

theorem test_witness_UnpackThenPack : (12 : Reg).val + Width.w4.count - 1 ≤ 15 ∧ (7 : LaneIx).val < 2 * Width.w4.count := by decide

/-- Groups at 12, 8 and 0, packed into P4 and P5. -/
theorem test_witness_PackComputeUnpack :
    Instr.cdiv ∈ [Instr.cadd, Instr.csub, Instr.cmul, Instr.cdiv] ∧ (12 : Reg).val + Width.w4.count - 1 ≤ 15 ∧
      (8 : Reg).val + Width.w4.count - 1 ≤ 15 ∧ (0 : Reg).val + Width.w4.count - 1 ≤ 15 ∧ inGroup 8 Width.w4.count 4 = false ∧
      (4 : Reg) ≠ 5 ∧ (15 : Reg).val = (12 : Reg).val + (3 : InstIx).val ∧ (11 : Reg).val = (8 : Reg).val + (3 : InstIx).val ∧
      (3 : Reg).val = (0 : Reg).val + (3 : InstIx).val := by
  refine ⟨by simp, ?_⟩
  decide

/-- The groups that the witness of PackSolveUnpack packs, at 0, 4, 8, 12, 0 and 4, and where it packs them, P0 to P5. -/
def solveGroups (j : Fin 6) : Reg := ⟨4 * (j.val % 4), by omega⟩
def solveRegs (j : Fin 6) : Reg := ⟨j.val, by omega⟩

/-- What the six packs wrote, gathered in one state: instance k of register r is `c[0]` of register 4 (r mod 4) + k. -/
def solvePacked : State :=
  { systems with
    p := Vector.ofFn fun r => Vector.ofFn fun l => systems.lane (4 * ⟨r.val % 4, by omega⟩ + ⟨l.val / 2, by omega⟩) ⟨l.val % 2, by omega⟩ }

/-- The scalars of instance 3 in lanes 0 and 1. -/
def solveScalars : State :=
  { systems with
    p := Vector.ofFn fun r => Vector.ofFn fun l => systems.lane (4 * ⟨r.val % 4, by omega⟩ + 3) ⟨l.val % 2, by omega⟩ }

/-- Each pack is performed in `systems`, as if the host had written it again. The results go to P6 and P7 and are unpacked to
the groups at P8 and at P12. -/
theorem test_witness_PackSolveUnpack :
    let after := fun j => (systems.applyWrites (packWrites .w4 (solveRegs j) (solveGroups j) systems)).answer (.completion 0)
    (7 : Reg).val = (6 : Reg).val + 1 ∧
      (∀ j : Fin 6, (solveRegs j).val = if j.val < 4 then (0 : Reg).val + j.val else (4 : Reg).val + (j.val - 4)) ∧
      (∀ j, (solveGroups j).val + Width.w4.count - 1 ≤ 15) ∧ (8 : Reg).val + Width.w4.count - 1 ≤ 15 ∧
      (12 : Reg).val + Width.w4.count - 1 ≤ 15 ∧ inGroup 8 Width.w4.count 7 = false ∧
      (∀ j, exec (.pack .w4 (solveRegs j) (solveGroups j)) systems = .next (after j)) ∧
      (∀ (j : Fin 6) (k : InstIx), k.val < Width.w4.count → solvePacked.c (solveRegs j) k = (after j).c (solveRegs j) k) ∧
      (3 : InstIx).val < Width.w4.count ∧ (11 : Reg).val = (8 : Reg).val + (3 : InstIx).val ∧
      (15 : Reg).val = (12 : Reg).val + (3 : InstIx).val ∧
      (∀ (j : Fin 6) (h : Reg), h.val = (solveGroups j).val + (3 : InstIx).val →
        solveScalars.c (solveRegs j) 0 = systems.c h 0) ∧
      solveScalars.s = solvePacked.s := by
  have hc : ∀ (j : Fin 6) (k : InstIx), solvePacked.c (solveRegs j) k = systems.c (groupReg (solveGroups j) k) 0 := by
    decide +kernel
  have hg : ∀ j, groupOk (solveGroups j) 4 = true := by decide
  refine ⟨by decide, by decide, by decide, by decide, by decide, by decide, fun j => if_pos (hg j), fun j k hk => ?_, by decide,
    by decide, by decide, by decide +kernel, rfl⟩
  exact (hc j k).trans ((c_packWrites .w4 _ _ systems _ k).trans (if_pos ⟨rfl, hk⟩)).symm

/-- Instance 2 of `systems` is singular: its determinant comes out as (+0, +0). -/
theorem test_witness_SingularChannelGivesNaN :
    (2 : InstIx).val < Width.w4.count ∧ (4 : Reg).val + 1 ≤ 15 ∧
      (let det := csub (cmul (systems.c 0 2) (systems.c 3 2)) (cmul (systems.c 1 2) (systems.c 2 2))
       isZero det.re = true ∧ isZero det.im = true) := by decide +kernel

theorem test_witness_StepRunsDecodedCommand :
    (State.reset.withFetchWord 32 0x10804000).pending = .cmd 0x10804000 :: [] ∧ decode 0x10804000 = .ok (.caddW1 2 0 1) := by
  decide

theorem test_witness_RejectionWritesNothing :
    (State.reset.withFetchWord 32 0x58380000).pending = .cmd 0x58380000 :: [] ∧ decode 0x58380000 = .error .regRange := by decide

/-- The last lane, the last imaginary part and the last scalar. -/
theorem test_witness_AddressMap :
    (0x7F#8).toNat = 8 * (15 : Reg).val + (7 : LaneIx).val ∧ (0x7E#8).toNat = 8 * (15 : Reg).val + 2 * (3 : InstIx).val ∧
      (0x7F#8).toNat = 8 * (15 : Reg).val + 2 * (3 : InstIx).val + 1 ∧ (0x83#8).toNat = 0x80 + (3 : SReg).val := by decide

/-- The clauses of RegReadRule at the edges of the map, and its second part. -/
theorem test_witness_RegReadRule :
    ((0x7F#8).toNat ≤ 0x7F ∧ (15 : Reg).val = (0x7F#8).toNat / 8 ∧ (7 : LaneIx).val = (0x7F#8).toNat % 8) ∧
      (0x80 ≤ (0x83#8).toNat ∧ (0x83#8).toNat ≤ 0x83 ∧ (3 : SReg).val = (0x83#8).toNat % 4) ∧ (0x84#8).toNat = 0x84 ∧
      0x85 ≤ (0x85#8).toNat ∧
      ({ State.reset with pending := [.regRead 0x84, .regRead 0x84] } : State).pending = .regRead 0x84 :: .regRead 0x84 :: [] := by
  decide

theorem test_witness_RegWriteRule :
    (0x83#8).toNat ≤ 0x83 ∧ 0x84 ≤ (0x84#8).toNat ∧ (0x84 : BitVec 8) ≠ 0x83 ∧
      ({ State.reset with pending := [.regWrite 0x83 1] } : State).pending = .regWrite 0x83 1 :: [] := by decide

/-- Each of the two events at the first address it is refused at. -/
theorem test_witness_AccessErrors :
    (({ State.reset with pending := [.regRead 0x85] } : State).pending = .regRead 0x85 :: [] ∧ 0x85 ≤ (0x85#8).toNat) ∧
      ({ State.reset with pending := [.regWrite 0x84 7] } : State).pending = .regWrite 0x84 7 :: [] ∧
        0x84 ≤ (0x84#8).toNat := by decide

/-- An event of each kind, the transactions at the edges where ERR begins. -/
theorem test_witness_RepliesAreOfTheirKind :
    ∀ e ∈ [HostEvent.cmd 0xFFFFFFFF, .regRead 0x84, .regRead 0x85, .regWrite 0x83 1, .regWrite 0x84 1, .reset none],
      ({ State.reset with pending := [e] } : State).pending = e :: [] := by decide

theorem test_witness_ScalarsChangeOnlyByHost :
    (∃ t, step ({ State.reset with pending := [.regWrite 0x7F 1] } : State) = .next t) ∧
      (∀ a v rest, ({ State.reset with pending := [.regWrite 0x7F 1] } : State).pending = .regWrite a v :: rest →
        ¬(0x80 ≤ a.toNat ∧ a.toNat ≤ 0x83)) ∧
      (∀ f rest, ({ State.reset with pending := [.regWrite 0x7F 1] } : State).pending ≠ .reset f :: rest) := by
  refine ⟨⟨_, rfl⟩, fun a v rest h => ?_, fun f rest h => by simp at h⟩
  simp only [List.cons.injEq, HostEvent.regWrite.injEq] at h
  rw [← h.1.1]
  decide

theorem test_witness_StepKeepsLegalReplies :
    LegalReplies ({ State.reset with pending := [.cmd 0], replies := [.completion 4] } : State) ∧
      ∃ t, step ({ State.reset with pending := [.cmd 0], replies := [.completion 4] } : State) = .next t := by
  refine ⟨fun r h => ?_, _, rfl⟩
  simp only [List.mem_singleton] at h
  subst h
  decide

theorem test_witness_ResetAnswersNothing :
    ({ State.reset with pending := [.reset (some 0x81810000), .regRead 0x84] } : State).pending =
      .reset (some 0x81810000) :: [.regRead 0x84] := by decide

end Sys2Proof.Tests
end

section
/-! A run of the machine answers every transaction once, in order (00_scope.md R17, 70_reset_and_hazards.md R159): what each
kind of host event appends to the reply log, then the run by induction on what the host has still to present. -/

namespace Sys2Proof.Machine

/-! ## What each transaction does to the host's side of the port -/

@[simp] theorem regRead_pending (a : BitVec 8) (s : State) : (regRead a s).pending = s.pending := by
  unfold regRead
  split <;> rfl

/-- A RegRead appends one status with a word (20_memory.md R44). -/
theorem regRead_replies (a : BitVec 8) (s : State) :
    ∃ status word, (regRead a s).replies = s.replies ++ [.read status word] := by
  unfold regRead
  split
  · exact ⟨.ok, _, rfl⟩
  · exact ⟨.err, _, rfl⟩

/-- An accepted write to the port touches neither what the host has to present nor what was returned to it. -/
theorem setPortWord_port {s t : State} {a : BitVec 8} {v : Word} (h : s.setPortWord a v = some t) :
    t.pending = s.pending ∧ t.replies = s.replies := by
  unfold State.setPortWord at h
  split at h
  · cases h
    exact ⟨setLane_pending .., setLane_replies ..⟩
  · split at h
    · cases h
      exact ⟨setScalar_pending .., setScalar_replies ..⟩
    · cases h

@[simp] theorem regWrite_pending (a : BitVec 8) (v : Word) (s : State) : (regWrite a v s).pending = s.pending := by
  unfold regWrite
  split
  · next h => simp [(setPortWord_port h).1]
  · rfl

/-- A RegWrite appends one status (20_memory.md R45). -/
theorem regWrite_replies (a : BitVec 8) (v : Word) (s : State) :
    ∃ status, (regWrite a v s).replies = s.replies ++ [.write status] := by
  unfold regWrite
  split
  · next h => exact ⟨.ok, by simp [(setPortWord_port h).2]⟩
  · exact ⟨.err, rfl⟩

theorem rejectCode_le_four (r : Reject) : (rejectCode r).toNat ≤ 4 := by
  cases r <;> decide

/-- Everything a Cmd can do: write some complex values, none if it is rejected, and return one code from 0 to 4
(60_exceptions.md R130, R131). -/
theorem runCmd_cases (w : Word) (s : State) :
    ∃ ws code, code.toNat ≤ 4 ∧ runCmd w s = .next ((s.applyWrites ws).answer (.completion code)) := by
  unfold runCmd
  split
  · next i _ =>
    rcases exec_cases i s with ⟨ws, hexec⟩ | hexec
    · exact ⟨ws, 0, by decide, hexec⟩
    · exact ⟨[], 4, by decide, hexec⟩
  · next r _ => exact ⟨[], rejectCode r, rejectCode_le_four r, reject_eq s r⟩

/-! ## The replies that answer a list of events -/

/-- The replies answer the transactions among the events, one each and in their order; a reset is answered by none. -/
def Answers (es : List HostEvent) (rs : List Reply) : Prop :=
  List.Forall₂ (fun e r => HostEvent.answeredBy e r = true) (es.filter HostEvent.isTransaction) rs

theorem answers_nil : Answers [] [] := .nil

theorem answers_reset (f : Option Word) : Answers [.reset f] [] := .nil

/-- Only a transaction is answered by any reply, so a reply of an event's kind answers that event. -/
theorem answers_singleton {e : HostEvent} {r : Reply} (h : e.answeredBy r = true) : Answers [e] [r] := by
  cases e with
  | regRead | regWrite | cmd => exact .cons h .nil
  | reset => cases r <;> cases h

theorem Answers.append {es es' : List HostEvent} {rs rs' : List Reply} (h : Answers es rs) (h' : Answers es' rs') :
    Answers (es ++ es') (rs ++ rs') := by
  unfold Answers
  rw [List.filter_append]
  exact List.rel_append h h'

/-- Every event completes, leaves what comes after it as it was, and appends the reply it is to be answered by
(20_memory.md R51, 70_reset_and_hazards.md R155). -/
theorem perform_answers (e : HostEvent) (s : State) :
    ∃ t rs, perform e s = .next t ∧ t.pending = s.pending ∧ t.replies = s.replies ++ rs ∧ Answers [e] rs := by
  cases e with
  | regRead a =>
    obtain ⟨status, word, hrep⟩ := regRead_replies a s
    exact ⟨regRead a s, [.read status word], rfl, regRead_pending a s, hrep, answers_singleton rfl⟩
  | regWrite a v =>
    obtain ⟨status, hrep⟩ := regWrite_replies a v s
    exact ⟨regWrite a v s, [.write status], rfl, regWrite_pending a v s, hrep, answers_singleton rfl⟩
  | cmd w =>
    obtain ⟨ws, code, _, hrun⟩ := runCmd_cases w s
    exact ⟨_, [.completion code], hrun, by simp, by simp, answers_singleton rfl⟩
  | reset f => exact ⟨resetPulse s, [], rfl, resetPulse_pending s, by simp, answers_reset f⟩

/-! ## Steps and runs -/

/-- With nothing presented the engine stays as it is (70_reset_and_hazards.md R159). -/
theorem step_of_idle {s : State} (h : s.pending = []) : step s = .next s := by
  simp only [step, takeEvent, h]

theorem step_of_pending {s : State} {e : HostEvent} {rest : List HostEvent} (h : s.pending = e :: rest) :
    step s = perform e { s with pending := rest } := by
  simp only [step, takeEvent, h]

/-- The step on a presented event takes that event off and answers it. -/
theorem step_answers {s : State} {e : HostEvent} {rest : List HostEvent} (h : s.pending = e :: rest) :
    ∃ t rs, step s = .next t ∧ t.pending = rest ∧ t.replies = s.replies ++ rs ∧ Answers [e] rs := by
  rw [step_of_pending h]
  exact perform_answers e { s with pending := rest }

/-- For any machine: a run whose first step goes on is the rest of the run from there. -/
theorem run_succ_of_step {M : Host.Core} {s t : M.State} (h : M.step s = .next t) (k : Nat) :
    M.run (k + 1) s = M.run k t := by
  simp only [Host.Core.run, h]

/-- As many steps as there are events use them all up, and what they append answers them. -/
theorem run_answers {es : List HostEvent} {s : State} (h : s.pending = es) :
    ∃ t rs, Host.Core.run Sys2Proof.core es.length s = .next t ∧ t.pending = [] ∧
      t.replies = s.replies ++ rs ∧ Answers es rs := by
  induction es generalizing s with
  | nil => exact ⟨s, [], rfl, h, by simp, answers_nil⟩
  | cons e rest ih =>
    obtain ⟨u, first, hstep, hpend, hfirst, hans⟩ := step_answers h
    obtain ⟨t, others, hrun, hidle, hothers, hans'⟩ := ih hpend
    refine ⟨t, first ++ others, ?_, hidle, ?_, hans.append hans'⟩
    · exact (run_succ_of_step (M := Sys2Proof.core) hstep rest.length).trans hrun
    · rw [hothers, hfirst, List.append_assoc]

end Sys2Proof.Machine

namespace Sys2Proof.Proofs

open Sys2Proof.Machine

/-- Settles O49, by induction on the events the host has still to present. -/
theorem runAnswersEveryTransaction : Obligations.RunAnswersEveryTransaction := by
  intro s
  obtain ⟨t, rs, hrun, hidle, hreplies, hans⟩ := run_answers (s := s) rfl
  exact ⟨t, hrun, hidle, step_of_idle hidle, rs, hreplies, hans⟩

end Sys2Proof.Proofs
end

section
/-! What a command writes, as one list computed from the state before it (10_state.md R25): which lanes the list names, which
lanes and scalars it depends on, and that applying it is all that `exec` does. From these follow the frame of every command
(10_state.md R26, R32) and that its result is a function of its sources (R21). -/

namespace Sys2Proof.Machine

/-! ## Lanes and the instances they belong to (00_scope.md R9) -/

/-- The number k of the complex value that lane `l` is a part of. -/
def laneInst (l : LaneIx) : InstIx := ⟨l.val / 2, by omega⟩

@[simp] theorem laneInst_reLane (k : InstIx) : laneInst (reLane k) = k := by
  apply Fin.ext; simp only [laneInst, reLane]; omega

@[simp] theorem laneInst_imLane (k : InstIx) : laneInst (imLane k) = k := by
  apply Fin.ext; simp only [laneInst, imLane]; omega

theorem activeLane_iff {w : Width} {l : LaneIx} : activeLane w l = true ↔ (laneInst l).val < w.count := by
  simp only [activeLane, laneInst, decide_eq_true_eq]; omega

theorem lane_eq_of_c_laneInst_eq {s t : State} {r : Reg} {l : LaneIx} (h : s.c r (laneInst l) = t.c r (laneInst l)) :
    s.lane r l = t.lane r l := by
  obtain ⟨k, rfl | rfl⟩ := lane_of_instance l
  · rw [laneInst_reLane] at h
    exact congrArg Cplx.re h
  · rw [laneInst_imLane] at h
    exact congrArg Cplx.im h

/-! ## Register groups (30_encoding.md R63, R68) -/

theorem inGroup_iff {r0 r : Reg} {n : Nat} : inGroup r0 n r = true ↔ r0.val ≤ r.val ∧ r.val < r0.val + n := by
  simp [inGroup]

/-- The k-th register of a group that does not pass P15 is in the group. -/
theorem inGroup_groupReg {r : Reg} {n k : Nat} (hfit : GroupFits r n) (hk : k < n) : inGroup r n (groupReg r k) = true := by
  rw [inGroup_iff, groupReg_val (by unfold GroupFits at hfit; omega)]
  omega

/-- The registers of a group of two. -/
theorem inGroup_two_iff {r0 r : Reg} (hfit : GroupFits r0 2) : inGroup r0 2 r = true ↔ r = r0 ∨ r = groupReg r0 1 := by
  rw [inGroup_iff, Fin.ext_iff, Fin.ext_iff, groupReg_val hfit]
  omega

/-- The range check that `exec` makes for a solver command is the one in `Instr.wf`. -/
theorem solverOk_eq (rd ra rb : Reg) : solverOk rd ra rb = decide (SolverFits rd ra rb) := by
  rw [Bool.eq_iff_iff, solverOk_iff, decide_eq_true_iff]

/-! ## The instances a list of writes names -/

/-- Some write of the list goes to complex value `k` of register `r`. -/
def WritesTo (ws : List CWrite) (r : Reg) (k : InstIx) : Prop := ∃ v ∈ ws, v.reg = r ∧ v.inst = k

/-- The writes of one value to each active complex value of `rd` name just those. -/
theorem writesTo_row_iff {w : Width} {rd r : Reg} {k : InstIx} {x : InstIx → Cplx} :
    WritesTo ((instances w).map fun j => ⟨rd, j, x j⟩) r k ↔ r = rd ∧ k.val < w.count := by
  constructor
  · rintro ⟨v, hv, rfl, rfl⟩
    obtain ⟨j, hj, rfl⟩ := List.mem_map.mp hv
    exact ⟨rfl, mem_instances.mp hj⟩
  · rintro ⟨rfl, hk⟩
    exact ⟨_, List.mem_map.mpr ⟨k, mem_instances.mpr hk, rfl⟩, rfl, rfl⟩

theorem writesTo_append_iff {ws vs : List CWrite} {r : Reg} {k : InstIx} :
    WritesTo (ws ++ vs) r k ↔ WritesTo ws r k ∨ WritesTo vs r k := by
  simp only [WritesTo, List.mem_append, or_and_right, exists_or]

/-- One list of writes leaves the same complex value where it writes, whatever stood there before. -/
theorem c_applyWrites_congr {ws : List CWrite} {r : Reg} {k : InstIx} (h : WritesTo ws r k) (s t : State) :
    (s.applyWrites ws).c r k = (t.applyWrites ws).c r k := by
  induction ws generalizing s t with
  | nil => obtain ⟨v, hv, _⟩ := h; cases hv
  | cons w ws ih =>
    simp only [applyWrites_cons]
    by_cases hlater : WritesTo ws r k
    · exact ih hlater _ _
    · have hnot : ∀ v ∈ ws, ¬(v.reg = r ∧ v.inst = k) := fun v hv hvk => hlater ⟨v, hv, hvk⟩
      have hfirst : w.reg = r ∧ w.inst = k := by
        obtain ⟨v, hv, hvk⟩ := h
        rcases List.mem_cons.mp hv with rfl | hmem
        · exact hvk
        · exact absurd hvk (hnot v hmem)
      rw [c_applyWrites_of_not_named _ _ _ _ hnot, c_applyWrites_of_not_named _ _ _ _ hnot, c_setC, c_setC,
        if_pos hfirst, if_pos hfirst]

/-! ## The lanes the writes of each operand shape name -/

/-- The lanes named by writes to the active instances of one register are its active lanes. -/
theorem writesTo_row_laneInst {w : Width} {rd r : Reg} {l : LaneIx} {x : InstIx → Cplx} :
    WritesTo ((instances w).map fun j => ⟨rd, j, x j⟩) r (laneInst l) ↔ (r == rd && activeLane w l) = true := by
  rw [writesTo_row_iff, Bool.and_eq_true, beq_iff_eq, activeLane_iff]

theorem writesTo_unpackWrites {w : Width} {rd ra r : Reg} {s : State} {l : LaneIx} (hfit : GroupFits rd w.count) :
    WritesTo (unpackWrites w rd ra s) r (laneInst l) ↔ (inGroup rd w.count r && activeLane .w1 l) = true := by
  have hcount : w.count ≤ 4 := by cases w <;> decide
  rw [Bool.and_eq_true, activeLane_iff, inGroup_iff]
  constructor
  · rintro ⟨v, hv, rfl, hl⟩
    obtain ⟨j, hj, rfl⟩ := List.mem_map.mp hv
    refine ⟨inGroup_iff.mp (inGroup_groupReg hfit (mem_instances.mp hj)), ?_⟩
    rw [← hl]
    exact Nat.one_pos
  · rintro ⟨⟨hlo, hhi⟩, hl⟩
    obtain ⟨j, hj⟩ : ∃ j : InstIx, r.val = rd.val + j.val :=
      ⟨⟨r.val - rd.val, by omega⟩, (Nat.add_sub_cancel' hlo).symm⟩
    have hmem : j ∈ instances w := mem_instances.mpr (by omega)
    exact ⟨_, List.mem_map.mpr ⟨j, hmem, rfl⟩, groupReg_eq hj, Fin.ext (Nat.lt_one_iff.mp hl).symm⟩

theorem writesTo_solverWrites {x : InstIx → Cplx × Cplx} {w : Width} {rd r : Reg} {l : LaneIx} (hfit : GroupFits rd 2) :
    WritesTo (solverWrites x w rd) r (laneInst l) ↔ (inGroup rd 2 r && activeLane w l) = true := by
  rw [solverWrites, writesTo_append_iff, writesTo_row_iff, writesTo_row_iff, Bool.and_eq_true, inGroup_two_iff hfit,
    activeLane_iff, or_and_right]

/-! ## The lanes the writes of each operand shape depend on -/

/-- Two states hold the same words in the lanes of `D`. -/
def AgreeOn (D : Reg → LaneIx → Bool) (s t : State) : Prop := ∀ r l, D r l = true → s.lane r l = t.lane r l

/-- States that agree on the active lanes of the registers in `G` agree on the active instances of each of them. -/
theorem AgreeOn.c_eq {G : Reg → Bool} {w : Width} {s t : State} (h : AgreeOn (fun r l => G r && activeLane w l) s t)
    {r : Reg} {k : InstIx} (hr : G r = true) (hk : k.val < w.count) : s.c r k = t.c r k := by
  have hlane : ∀ l, laneInst l = k → s.lane r l = t.lane r l := by
    rintro l rfl
    exact h r l (by simp only [hr, activeLane_iff.mpr hk, Bool.and_self])
  simp only [State.c, hlane _ (laneInst_reLane k), hlane _ (laneInst_imLane k)]

theorem binaryWrites_congr {f : Cplx → Cplx → Cplx} {w : Width} {rd ra rb : Reg} {s t : State}
    (h : AgreeOn (fun r l => (r == ra || r == rb) && activeLane w l) s t) :
    binaryWrites f w rd ra rb s = binaryWrites f w rd ra rb t := by
  apply List.map_congr_left
  intro k hk
  rw [mem_instances] at hk
  have ha : s.c ra k = t.c ra k := h.c_eq (by simp) hk
  have hb : s.c rb k = t.c rb k := h.c_eq (by simp) hk
  rw [ha, hb]

theorem packWrites_congr {w : Width} {rd ra : Reg} {s t : State} (hfit : GroupFits ra w.count)
    (h : AgreeOn (fun r l => inGroup ra w.count r && activeLane .w1 l) s t) :
    packWrites w rd ra s = packWrites w rd ra t := by
  apply List.map_congr_left
  intro k hk
  have hsrc : s.c (groupReg ra k.val) 0 = t.c (groupReg ra k.val) 0 :=
    h.c_eq (inGroup_groupReg hfit (mem_instances.mp hk)) (by decide)
  rw [hsrc]

theorem unpackWrites_congr {w : Width} {rd ra : Reg} {s t : State}
    (h : AgreeOn (fun r l => r == ra && activeLane w l) s t) : unpackWrites w rd ra s = unpackWrites w rd ra t := by
  apply List.map_congr_left
  intro k hk
  have hsrc : s.c ra k = t.c ra k := h.c_eq (by simp) (mem_instances.mp hk)
  rw [hsrc]

theorem solverWrites_congr {x y : InstIx → Cplx × Cplx} {w : Width} {rd : Reg} (h : ∀ k, k.val < w.count → x k = y k) :
    solverWrites x w rd = solverWrites y w rd := by
  have hk : ∀ k ∈ instances w, x k = y k := fun k hk => h k (mem_instances.mp hk)
  unfold solverWrites
  congr 1
  · exact List.map_congr_left fun k hmem => by rw [hk k hmem]
  · exact List.map_congr_left fun k hmem => by rw [hk k hmem]

/-- States that agree on the two source groups of a solver command agree on the six complex values of each problem. -/
theorem solverSources_eq {w : Width} {ra rb : Reg} {s t : State} (hra : GroupFits ra 4) (hrb : GroupFits rb 2)
    (h : AgreeOn (fun r l => (inGroup ra 4 r || inGroup rb 2 r) && activeLane w l) s t) {k : InstIx}
    (hk : k.val < w.count) :
    s.c ra k = t.c ra k ∧ s.c (groupReg ra 1) k = t.c (groupReg ra 1) k ∧
      s.c (groupReg ra 2) k = t.c (groupReg ra 2) k ∧ s.c (groupReg ra 3) k = t.c (groupReg ra 3) k ∧
      s.c rb k = t.c rb k ∧ s.c (groupReg rb 1) k = t.c (groupReg rb 1) k := by
  have ha : ∀ j < 4, s.c (groupReg ra j) k = t.c (groupReg ra j) k := fun j hj =>
    h.c_eq (by simp [inGroup_groupReg hra hj]) hk
  have hb : ∀ j < 2, s.c (groupReg rb j) k = t.c (groupReg rb j) k := fun j hj =>
    h.c_eq (by simp [inGroup_groupReg hrb hj]) hk
  refine ⟨?_, ha 1 (by decide), ha 2 (by decide), ha 3 (by decide), ?_, hb 1 (by decide)⟩
  · simpa using ha 0 (by decide)
  · simpa using hb 0 (by decide)

theorem zfResult_congr {w : Width} {ra rb : Reg} {sg : SReg} {s t : State} (hra : GroupFits ra 4) (hrb : GroupFits rb 2)
    (h : AgreeOn (fun r l => (inGroup ra 4 r || inGroup rb 2 r) && activeLane w l) s t)
    (hg : s.scalar sg = t.scalar sg) {k : InstIx} (hk : k.val < w.count) :
    zfResult ra rb sg s k = zfResult ra rb sg t k := by
  obtain ⟨h00, h01, h10, h11, hy0, hy1⟩ := solverSources_eq hra hrb h hk
  rw [zfResult, zfResult, h00, h01, h10, h11, hy0, hy1, hg]

theorem mmseResult_congr {w : Width} {ra rb : Reg} {sg sn : SReg} {s t : State} (hra : GroupFits ra 4)
    (hrb : GroupFits rb 2) (h : AgreeOn (fun r l => (inGroup ra 4 r || inGroup rb 2 r) && activeLane w l) s t)
    (hg : s.scalar sg = t.scalar sg) (hn : s.scalar sn = t.scalar sn) {k : InstIx} (hk : k.val < w.count) :
    mmseResult ra rb sg sn s k = mmseResult ra rb sg sn t k := by
  obtain ⟨h00, h01, h10, h11, hy0, hy1⟩ := solverSources_eq hra hrb h hk
  rw [mmseResult, mmseResult, h00, h01, h10, h11, hy0, hy1, hg, hn]

/-! ## The writes of a command -/

/-- The writes of a well-formed command, from the state before it (R95 to R98, R100, R101, R111, R121). -/
def commandWrites (i : Instr) (s : State) : List CWrite :=
  match i with
  | .caddW1 rd ra rb => binaryWrites cadd .w1 rd ra rb s
  | .caddW2 rd ra rb => binaryWrites cadd .w2 rd ra rb s
  | .caddW4 rd ra rb => binaryWrites cadd .w4 rd ra rb s
  | .csubW1 rd ra rb => binaryWrites csub .w1 rd ra rb s
  | .csubW2 rd ra rb => binaryWrites csub .w2 rd ra rb s
  | .csubW4 rd ra rb => binaryWrites csub .w4 rd ra rb s
  | .cmulW1 rd ra rb => binaryWrites cmul .w1 rd ra rb s
  | .cmulW2 rd ra rb => binaryWrites cmul .w2 rd ra rb s
  | .cmulW4 rd ra rb => binaryWrites cmul .w4 rd ra rb s
  | .cdivW1 rd ra rb => binaryWrites cdiv .w1 rd ra rb s
  | .cdivW2 rd ra rb => binaryWrites cdiv .w2 rd ra rb s
  | .cdivW4 rd ra rb => binaryWrites cdiv .w4 rd ra rb s
  | .packW1 rd ra => packWrites .w1 rd ra s
  | .packW2 rd ra => packWrites .w2 rd ra s
  | .packW4 rd ra => packWrites .w4 rd ra s
  | .unpackW1 rd ra => unpackWrites .w1 rd ra s
  | .unpackW2 rd ra => unpackWrites .w2 rd ra s
  | .unpackW4 rd ra => unpackWrites .w4 rd ra s
  | .zfW1 rd ra rb sg => solverWrites (zfResult ra rb sg s) .w1 rd
  | .zfW2 rd ra rb sg => solverWrites (zfResult ra rb sg s) .w2 rd
  | .zfW4 rd ra rb sg => solverWrites (zfResult ra rb sg s) .w4 rd
  | .mmseW1 rd ra rb sg sn => solverWrites (mmseResult ra rb sg sn s) .w1 rd
  | .mmseW2 rd ra rb sg sn => solverWrites (mmseResult ra rb sg sn s) .w2 rd
  | .mmseW4 rd ra rb sg sn => solverWrites (mmseResult ra rb sg sn s) .w4 rd

/-- A command applies its writes and returns 0 where it is well formed, and is rejected otherwise (R68, R69, log 7). -/
theorem exec_eq_complete_or_reject (i : Instr) (s : State) :
    exec i s = if i.wf then s.complete (commandWrites i s) else s.reject .regRange := by
  cases i with
  | caddW1 | caddW2 | caddW4 | csubW1 | csubW2 | csubW4 | cmulW1 | cmulW2 | cmulW4 | cdivW1 | cdivW2 | cdivW4 => rfl
  | packW1 | packW2 | packW4 | unpackW1 | unpackW2 | unpackW4 => rfl
  | zfW1 rd ra rb | zfW2 rd ra rb | zfW4 rd ra rb | mmseW1 rd ra rb | mmseW2 rd ra rb | mmseW4 rd ra rb =>
    rw [Instr.wf, ← solverOk_eq]
    rfl

/-- The lanes that the writes name are the destination lanes of the command (10_state.md R26). -/
theorem writesTo_commandWrites_iff {i : Instr} (hwf : i.wf = true) (s : State) (r : Reg) (l : LaneIx) :
    WritesTo (commandWrites i s) r (laneInst l) ↔ destLane i r l = true := by
  cases i with
  | caddW1 | caddW2 | caddW4 | csubW1 | csubW2 | csubW4 | cmulW1 | cmulW2 | cmulW4 | cdivW1 | cdivW2 | cdivW4 =>
    exact writesTo_row_laneInst
  | packW1 | packW2 | packW4 => exact writesTo_row_laneInst
  | unpackW1 | unpackW2 | unpackW4 => exact writesTo_unpackWrites (of_decide_eq_true hwf)
  | zfW1 | zfW2 | zfW4 | mmseW1 | mmseW2 | mmseW4 => exact writesTo_solverWrites (of_decide_eq_true hwf).1

/-- The writes are a function of the lanes and scalars that the command reads (10_state.md R21). -/
theorem commandWrites_congr {i : Instr} (hwf : i.wf = true) {s t : State} (hlanes : AgreeOn (srcLane i) s t)
    (hscalars : ∀ j, srcScalar i j = true → s.scalar j = t.scalar j) : commandWrites i s = commandWrites i t := by
  cases i with
  | caddW1 | caddW2 | caddW4 | csubW1 | csubW2 | csubW4 | cmulW1 | cmulW2 | cmulW4 | cdivW1 | cdivW2 | cdivW4 =>
    exact binaryWrites_congr hlanes
  | packW1 | packW2 | packW4 => exact packWrites_congr (of_decide_eq_true hwf) hlanes
  | unpackW1 | unpackW2 | unpackW4 => exact unpackWrites_congr hlanes
  | zfW1 rd ra rb sg | zfW2 rd ra rb sg | zfW4 rd ra rb sg =>
    obtain ⟨-, hra, hrb⟩ : SolverFits rd ra rb := of_decide_eq_true hwf
    have hg := hscalars sg (by simp [srcScalar])
    exact solverWrites_congr fun k hk => zfResult_congr hra hrb hlanes hg hk
  | mmseW1 rd ra rb sg sn | mmseW2 rd ra rb sg sn | mmseW4 rd ra rb sg sn =>
    obtain ⟨-, hra, hrb⟩ : SolverFits rd ra rb := of_decide_eq_true hwf
    have hg := hscalars sg (by simp [srcScalar])
    have hn := hscalars sn (by simp [srcScalar])
    exact solverWrites_congr fun k hk => mmseResult_congr hra hrb hlanes hg hn hk

/-! ## Frames -/

/-- A list of writes that stays inside `D`, and the answer to the host, change nothing else. -/
theorem onlyLanes_applyWrites {D : Reg → LaneIx → Bool} {ws : List CWrite}
    (h : ∀ r l, WritesTo ws r (laneInst l) → D r l = true) (s : State) (rep : Reply) :
    OnlyLanes D s ((s.applyWrites ws).answer rep) where
  lanes r l hD := by
    have hnot : ∀ v ∈ ws, ¬(v.reg = r ∧ v.inst = laneInst l) := fun v hv hvk =>
      Bool.false_ne_true (hD.symm.trans (h r l ⟨v, hv, hvk⟩))
    exact lane_eq_of_c_laneInst_eq (c_applyWrites_of_not_named ws s r (laneInst l) hnot)
  scalars := by simp
  pending := by simp
  freeCount := by simp

/-- A lane address is the address of the lane it selects (20_memory.md R42). -/
theorem laneAddr_port {a : BitVec 8} (ha : a ≤ 0x7F#8) : laneAddr (portReg a) (portLane a) = a := by
  have hlt : a.toNat ≤ 127 := BitVec.le_def.mp ha
  apply BitVec.eq_of_toNat_eq
  simp only [laneAddr, portReg, portLane, BitVec.val_toFin, BitVec.extractLsb'_toNat, Nat.shiftRight_eq_div_pow,
    BitVec.toNat_ofNat]
  omega

/-- Where only the lanes in `D` differ, every port word but at their addresses is as before (20_memory.md R41 to R43). -/
theorem OnlyLanes.portWord_eq {D : Reg → LaneIx → Bool} {s t : State} (h : OnlyLanes D s t) {a : BitVec 8}
    (ha : ∀ r l, D r l = true → a ≠ laneAddr r l) : t.portWord a = s.portWord a := by
  unfold State.portWord
  split
  · next hlane =>
    have hD : D (portReg a) (portLane a) = false :=
      Bool.eq_false_iff.mpr fun hD => ha _ _ hD (laneAddr_port hlane).symm
    rw [h.lanes _ _ hD]
  · simp only [State.scalar, h.scalars]

/-! ## The scalar file (10_state.md R27) -/

@[simp] theorem regRead_s (a : BitVec 8) (s : State) : (regRead a s).s = s.s := by
  unfold regRead
  split <;> rfl

/-- A RegWrite to no scalar's address leaves S as it was (20_memory.md R43, R45). -/
theorem regWrite_s_of_not_scalar {a : BitVec 8} (ha : ¬(0x80 ≤ a.toNat ∧ a.toNat ≤ 0x83)) (v : Word) (s : State) :
    (regWrite a v s).s = s.s := by
  unfold regWrite State.setPortWord
  by_cases hlane : a ≤ 0x7F#8
  · simp [hlane]
  · have hscalar : ¬ a ≤ 0x83#8 := by
      simp only [BitVec.le_def, BitVec.toNat_ofNat] at hlane ⊢
      omega
    simp [hlane, hscalar]

/-- No command word, executed or rejected, changes S. -/
theorem runCmd_s {w : Word} {s t : State} (h : runCmd w s = .next t) : t.s = s.s := by
  obtain ⟨ws, code, _, hrun⟩ := runCmd_cases w s
  cases hrun.symm.trans h
  simp

end Sys2Proof.Machine

namespace Sys2Proof.Proofs

open Sys2Proof.Machine

/-- Settles O30: a well-formed command applies writes that name its destination lanes, another one is rejected and writes
nothing; the words of the port follow from the lanes. -/
theorem commandFrame : Obligations.CommandFrame := by
  intro i s
  have frame : ∃ t, exec i s = .next t ∧ OnlyLanes (destLane i) s t ∧
      (i.wf = true → t.replies = s.replies ++ [.completion 0]) := by
    rw [exec_eq_complete_or_reject]
    split
    · next hwf =>
      refine ⟨_, complete_eq s _, onlyLanes_applyWrites (fun r l => ?_) s _, fun _ => by simp⟩
      exact (writesTo_commandWrites_iff hwf s r l).mp
    · next hwf =>
      exact ⟨_, reject_eq s _, onlyLanes_applyWrites (ws := []) (fun r l ⟨_, hv, _⟩ => nomatch hv) s _,
        fun h => absurd h hwf⟩
  obtain ⟨t, hexec, honly, hreplies⟩ := frame
  exact ⟨t, hexec, honly, fun a ha => honly.portWord_eq ha, hreplies⟩

/-- Settles O31: both states give the command the same list of writes, and that list names every destination lane. -/
theorem resultDependsOnlyOnSources : Obligations.ResultDependsOnlyOnSources := by
  intro i s₁ s₂ hwf hlanes hscalars
  have hexec : ∀ s, exec i s = .next ((s.applyWrites (commandWrites i s)).answer (.completion 0)) := fun s => by
    rw [exec_eq_complete_or_reject, if_pos hwf, complete_eq]
  have hwrites : commandWrites i s₁ = commandWrites i s₂ := commandWrites_congr hwf hlanes hscalars
  refine ⟨_, _, 0, hexec s₁, hexec s₂, by simp, by simp, fun r l hdest => ?_⟩
  rw [hwrites]
  exact lane_eq_of_c_laneInst_eq (c_applyWrites_congr ((writesTo_commandWrites_iff hwf s₂ r l).mpr hdest) s₁ s₂)

/-- Settles O50, by cases on the event that the step performs. -/
theorem scalarsChangeOnlyByHost : Obligations.ScalarsChangeOnlyByHost := by
  intro s t hstep hwrite hreset
  cases hp : s.pending with
  | nil =>
    rw [step_of_idle hp] at hstep
    cases hstep
    rfl
  | cons e rest =>
    rw [step_of_pending hp] at hstep
    cases e with
    | regRead a =>
      cases hstep
      simp
    | regWrite a v =>
      cases hstep
      rw [regWrite_s_of_not_scalar (hwrite a v rest hp)]
    | cmd w => rw [runCmd_s hstep]
    | reset f => exact absurd hp (hreset f rest)

/-- Settles O53: CAP is a constant of the address map, and the reset state presents nothing. -/
theorem resetIsIdle : Obligations.ResetIsIdle := by
  refine ⟨rfl, step_of_idle rfl, fun e => ?_⟩
  rw [step_of_pending (e := e) (rest := []) rfl]
  rfl

end Sys2Proof.Proofs
end

section
/-! The register transactions of the port: which lane or scalar each word address selects (20_memory.md R41 to R43), where a
write is stored (R45), and the state that a step on a RegRead or a RegWrite leaves (R44 to R46). -/

namespace Sys2Proof.Machine

/-! ## The address map (20_memory.md R41 to R43) -/

theorem portReg_val (a : BitVec 8) : (portReg a).val = a.toNat / 8 % 16 := by
  simp [portReg, Nat.shiftRight_eq_div_pow]

theorem portLane_val (a : BitVec 8) : (portLane a).val = a.toNat % 8 := by
  simp [portLane]

theorem portScalar_val (a : BitVec 8) : (portScalar a).val = a.toNat % 4 := by
  simp [portScalar]

/-- The address 8r + l is the lane address that selects lane `l` of register `r` (R42). -/
theorem laneAddress_iff {a : BitVec 8} {r : Reg} {l : LaneIx} :
    a.toNat = 8 * r.val + l.val ↔ a.toNat ≤ 0x7F ∧ portReg a = r ∧ portLane a = l := by
  rw [Fin.ext_iff, Fin.ext_iff, portReg_val, portLane_val]
  omega

/-- The address 0x80 + i is the scalar address that selects scalar `i` (R43). -/
theorem scalarAddress_iff {a : BitVec 8} {i : SReg} :
    a.toNat = 0x80 + i.val ↔ (0x80 ≤ a.toNat ∧ a.toNat ≤ 0x83) ∧ portScalar a = i := by
  rw [Fin.ext_iff, portScalar_val]
  omega

theorem portWord_of_lane {s : State} {a : BitVec 8} {r : Reg} {l : LaneIx} (ha : a.toNat = 8 * r.val + l.val) :
    s.portWord a = some (s.lane r l) := by
  obtain ⟨hle, rfl, rfl⟩ := laneAddress_iff.mp ha
  exact if_pos (BitVec.le_def.mpr hle)

theorem portWord_of_scalar {s : State} {a : BitVec 8} {i : SReg} (ha : a.toNat = 0x80 + i.val) :
    s.portWord a = some (s.scalar i) := by
  obtain ⟨⟨hlo, hhi⟩, rfl⟩ := scalarAddress_iff.mp ha
  have hlane : ¬ a ≤ 0x7F#8 := BitVec.not_le.mpr (BitVec.lt_def.mpr hlo)
  exact (if_neg hlane).trans (if_pos (BitVec.le_def.mpr hhi))

theorem portWord_of_cap {s : State} {a : BitVec 8} (ha : a.toNat = 0x84) : s.portWord a = some 0x00000007 := by
  obtain rfl : a = 0x84#8 := BitVec.eq_of_toNat_eq ha
  rfl

theorem portWord_of_unmapped {s : State} {a : BitVec 8} (ha : 0x85 ≤ a.toNat) : s.portWord a = none := by
  have hlane : ¬ a ≤ 0x7F#8 := by bv_omega
  have hscalar : ¬ a ≤ 0x83#8 := by bv_omega
  have hcap : a ≠ 0x84#8 := by bv_omega
  simp only [State.portWord, hlane, hscalar, hcap, if_false]

/-- Every address up to CAP has a word (R41). -/
theorem portWord_of_mapped (s : State) {a : BitVec 8} (ha : a.toNat ≤ 0x84) : ∃ word, s.portWord a = some word := by
  rcases (by omega : a.toNat ≤ 0x7F ∨ (0x80 ≤ a.toNat ∧ a.toNat ≤ 0x83) ∨ a.toNat = 0x84) with hlane | hscalar | hcap
  · exact ⟨_, portWord_of_lane (laneAddress_iff.mpr ⟨hlane, rfl, rfl⟩)⟩
  · exact ⟨_, portWord_of_scalar (scalarAddress_iff.mpr ⟨hscalar, rfl⟩)⟩
  · exact ⟨_, portWord_of_cap hcap⟩

/-! ## Where a write is stored (20_memory.md R45) -/

/-- A write is stored in the lane or in the scalar that its address selects, and nowhere else. -/
theorem setPortWord_eq_some_iff {s t : State} {a : BitVec 8} {v : Word} :
    s.setPortWord a v = some t ↔
      (a.toNat ≤ 0x7F ∧ t = s.setLane (portReg a) (portLane a) v) ∨
        ((0x80 ≤ a.toNat ∧ a.toNat ≤ 0x83) ∧ t = s.setScalar (portScalar a) v) := by
  have hlane : a ≤ 0x7F#8 ↔ a.toNat ≤ 0x7F := BitVec.le_def
  have hscalar : a ≤ 0x83#8 ↔ a.toNat ≤ 0x83 := BitVec.le_def
  simp only [State.setPortWord, hlane, hscalar]
  split
  · next h => simp [h, eq_comm, show ¬ 0x80 ≤ a.toNat by omega]
  · next h =>
    split
    · next h' => simp [h, h', eq_comm, show 0x80 ≤ a.toNat by omega]
    · next h' => simp [h, h']

theorem setPortWord_of_writable (s : State) {a : BitVec 8} (ha : a.toNat ≤ 0x83) (v : Word) :
    ∃ t, s.setPortWord a v = some t := by
  by_cases hlane : a.toNat ≤ 0x7F
  · exact ⟨_, setPortWord_eq_some_iff.mpr (.inl ⟨hlane, rfl⟩)⟩
  · exact ⟨_, setPortWord_eq_some_iff.mpr (.inr ⟨⟨by omega, ha⟩, rfl⟩)⟩

theorem setPortWord_of_refused (s : State) {a : BitVec 8} (ha : 0x84 ≤ a.toNat) (v : Word) :
    s.setPortWord a v = none := by
  refine Option.eq_none_iff_forall_ne_some.mpr fun t h => ?_
  rcases setPortWord_eq_some_iff.mp h with ⟨hle, -⟩ | ⟨⟨-, hle⟩, -⟩ <;> omega

theorem lane_setPortWord {s t : State} {a : BitVec 8} {v : Word} (h : s.setPortWord a v = some t) (r : Reg)
    (l : LaneIx) : t.lane r l = if a.toNat = 8 * r.val + l.val then v else s.lane r l := by
  simp only [laneAddress_iff]
  rcases setPortWord_eq_some_iff.mp h with ⟨hlane, rfl⟩ | ⟨hscalar, rfl⟩
  · simp only [lane_setLane, hlane, true_and]
  · have hnot : ¬ a.toNat ≤ 0x7F := by omega
    simp only [lane_setScalar, hnot, false_and, if_false]

theorem scalar_setPortWord {s t : State} {a : BitVec 8} {v : Word} (h : s.setPortWord a v = some t) (i : SReg) :
    t.scalar i = if a.toNat = 0x80 + i.val then v else s.scalar i := by
  simp only [scalarAddress_iff]
  rcases setPortWord_eq_some_iff.mp h with ⟨hlane, rfl⟩ | ⟨hscalar, rfl⟩
  · have hnot : ¬ 0x80 ≤ a.toNat := by omega
    simp only [scalar_setLane, hnot, false_and, if_false]
  · simp only [scalar_setScalar, hscalar, and_self, true_and]

theorem freeCount_setPortWord {s t : State} {a : BitVec 8} {v : Word} (h : s.setPortWord a v = some t) :
    t.freeCount = s.freeCount := by
  rcases setPortWord_eq_some_iff.mp h with ⟨-, rfl⟩ | ⟨-, rfl⟩
  · exact setLane_freeCount ..
  · exact setScalar_freeCount ..

/-! ## The step on a register transaction (20_memory.md R44 to R46) -/

theorem step_regRead_of_mapped {s : State} {a : BitVec 8} {rest : List HostEvent} {word : Word}
    (hp : s.pending = .regRead a :: rest) (hword : s.portWord a = some word) :
    step s = .next { s with pending := rest, replies := s.replies ++ [.read .ok word] } := by
  rw [step_of_pending hp]
  simp only [perform, regRead, withPending_portWord, hword]
  rfl

theorem step_regRead_of_unmapped {s : State} {a : BitVec 8} {rest : List HostEvent}
    (hp : s.pending = .regRead a :: rest) (hword : s.portWord a = none) :
    step s = .next { s with
      pending := rest
      replies := s.replies ++ [.read .err (Config.freeWord s.freeCount)]
      freeCount := s.freeCount + 1 } := by
  rw [step_of_pending hp]
  simp only [perform, regRead, withPending_portWord, hword]
  rfl

theorem step_regWrite_of_writable {s t : State} {a : BitVec 8} {v : Word} {rest : List HostEvent}
    (hp : s.pending = .regWrite a v :: rest)
    (hset : ({ s with pending := rest } : State).setPortWord a v = some t) :
    step s = .next (t.answer (.write .ok)) := by
  rw [step_of_pending hp]
  simp only [perform, regWrite, hset]

theorem step_regWrite_of_refused {s : State} {a : BitVec 8} {v : Word} {rest : List HostEvent}
    (hp : s.pending = .regWrite a v :: rest) (ha : 0x84 ≤ a.toNat) :
    step s = .next { s with pending := rest, replies := s.replies ++ [.write .err] } := by
  rw [step_of_pending hp]
  simp only [perform, regWrite, setPortWord_of_refused _ ha]
  rfl

end Sys2Proof.Machine

namespace Sys2Proof.Proofs

open Sys2Proof.Machine

/-- Settles O43: the two parts of the k-th complex value are lanes 2k and 2k + 1. -/
theorem addressMap : Obligations.AddressMap := by
  intro s
  refine ⟨fun a r l ha => portWord_of_lane ha, fun a r k ha => ?_, fun a r k ha => ?_, fun a i ha => portWord_of_scalar ha⟩
  · exact portWord_of_lane (l := reLane k) ha
  · exact portWord_of_lane (l := imLane k) ha

/-- Settles O44: a read answers with the port's word, which the read itself leaves in place for the next one. -/
theorem regReadRule : Obligations.RegReadRule := by
  refine ⟨fun s a rest hp => ⟨fun r l ha hr hl => ?_, fun i hlo hhi hi => ?_, fun ha => ?_, fun ha => ?_⟩,
    fun s a rest hp ha => ?_⟩
  · exact step_regRead_of_mapped hp (portWord_of_lane (by omega))
  · exact step_regRead_of_mapped hp (portWord_of_scalar (by omega))
  · exact step_regRead_of_mapped hp (portWord_of_cap ha)
  · exact ⟨_, step_regRead_of_unmapped hp (portWord_of_unmapped ha)⟩
  · obtain ⟨word, hword⟩ := portWord_of_mapped s ha
    refine ⟨word, _, _, step_regRead_of_mapped hp hword, step_regRead_of_mapped rfl hword, ?_⟩
    exact List.append_assoc ..

/-- Settles O45: the word goes to the one lane or scalar that the address selects; CAP and the unmapped addresses select
none. -/
theorem regWriteRule : Obligations.RegWriteRule := by
  intro s a v rest hp
  refine ⟨fun ha => ?_, step_regWrite_of_refused hp⟩
  obtain ⟨t, hset⟩ := setPortWord_of_writable { s with pending := rest } ha v
  obtain ⟨hpending, hreplies⟩ := setPortWord_port hset
  have hfree := freeCount_setPortWord hset
  have hlane := lane_setPortWord hset
  have hscalar := scalar_setPortWord hset
  refine ⟨_, step_regWrite_of_writable hp hset, hpending, congrArg (· ++ _) hreplies, hfree, hlane, hscalar, ?_,
    fun b hb => ?_⟩
  · rw [answer_portWord, portWord_setPortWord hset, if_pos rfl]
  · rw [answer_portWord, portWord_setPortWord hset, if_neg hb, withPending_portWord]

/-- Settles O46, by the two kinds of refused access. -/
theorem accessErrors : Obligations.AccessErrors := by
  intro s a e rest hp herr
  rcases herr with ⟨rfl, ha⟩ | ⟨v, rfl, ha⟩
  · exact ⟨_, step_regRead_of_unmapped hp (portWord_of_unmapped ha), rfl, rfl, rfl, fun _ => ⟨_, rfl⟩, nofun⟩
  · exact ⟨_, step_regWrite_of_refused hp ha, rfl, rfl, rfl, nofun, fun _ _ => rfl⟩

end Sys2Proof.Proofs
end

section
/-! The command word as a code: what the encoder writes and the decoder's checks read, so that the two are inverse to each other
(30_encoding.md R62, R67, R68), and the answer to each of the 2^32 words with its fields read as numbers (R69). -/

namespace Sys2Proof

/-! ## A word and its fields (30_encoding.md R62) -/

/-- A word is determined by its eight fields, `z` zero. -/
theorem encodeFields_eq_iff {op : Op} {wd : Width} {rd ra rb : Reg} {sg sn : SReg} {w : Word} :
    encodeFields op wd rd ra rb sg sn = w ↔
      opField w = opCode op ∧ wcField w = widthCode wd ∧ (rdField w).toFin = rd ∧ (raField w).toFin = ra ∧
        (rbField w).toFin = rb ∧ (sgField w).toFin = sg ∧ (snField w).toFin = sn ∧ zField w = 0 := by
  constructor
  · rintro rfl
    simp
  · rintro ⟨hop, hwc, rfl, rfl, rfl, rfl, rfl, hz⟩
    apply BitVec.eq_of_toNat_eq
    have hz0 : (zField w).toNat = 0 := congrArg BitVec.toNat hz
    have hlt := w.isLt
    rw [zField_toNat] at hz0
    rw [encodeFields_toNat, ← hop, ← hwc]
    simp only [BitVec.val_toFin, opField_toNat, wcField_toNat, rdField_toNat, raField_toNat, rbField_toNat, sgField_toNat,
      snField_toNat]
    omega

/-- The word of a command carries its operation and its width (R64, R66). -/
theorem encode_eq_encodeFields (i : Instr) :
    ∃ rd ra rb sg sn, encode i = encodeFields (Laws.opOf i) (Laws.widthOf i) rd ra rb sg sn := by
  cases i <;> exact ⟨_, _, _, _, _, rfl⟩

/-! ## The command assembled from a word (30_encoding.md R63, R67, R68) -/

/-- The word of an assembled command: its own fields, and zero for those that the operation does not use. -/
theorem encode_assemble (op : Op) (wd : Width) (w : Word) :
    encode (assemble op wd w) =
      match op with
      | .cadd | .csub | .cmul | .cdiv =>
        encodeFields op wd (rdField w).toFin (raField w).toFin (rbField w).toFin 0 0
      | .pack | .unpack => encodeFields op wd (rdField w).toFin (raField w).toFin 0 0 0
      | .zf => encodeFields op wd (rdField w).toFin (raField w).toFin (rbField w).toFin (sgField w).toFin 0
      | .mmse =>
        encodeFields op wd (rdField w).toFin (raField w).toFin (rbField w).toFin (sgField w).toFin (snField w).toFin := by
  cases op <;> cases wd <;> rfl

/-- A command is what its own word is assembled to. -/
theorem assemble_encode (i : Instr) : assemble (Laws.opOf i) (Laws.widthOf i) (encode i) = i := by
  cases i with
  | caddW1 | caddW2 | caddW4 => simp [assemble, encode, Laws.opOf, Laws.widthOf, Instr.cadd]
  | csubW1 | csubW2 | csubW4 => simp [assemble, encode, Laws.opOf, Laws.widthOf, Instr.csub]
  | cmulW1 | cmulW2 | cmulW4 => simp [assemble, encode, Laws.opOf, Laws.widthOf, Instr.cmul]
  | cdivW1 | cdivW2 | cdivW4 => simp [assemble, encode, Laws.opOf, Laws.widthOf, Instr.cdiv]
  | packW1 | packW2 | packW4 => simp [assemble, encode, Laws.opOf, Laws.widthOf, Instr.pack]
  | unpackW1 | unpackW2 | unpackW4 => simp [assemble, encode, Laws.opOf, Laws.widthOf, Instr.unpack]
  | zfW1 | zfW2 | zfW4 => simp [assemble, encode, Laws.opOf, Laws.widthOf, Instr.zf]
  | mmseW1 | mmseW2 | mmseW4 => simp [assemble, encode, Laws.opOf, Laws.widthOf, Instr.mmse]

/-- The check of R67 passes just the words that keep all their bits in the command. -/
theorem reservedFails_eq_false_iff {op : Op} {wd : Width} {w : Word} (hop : opField w = opCode op)
    (hwc : wcField w = widthCode wd) : reservedFails op w = false ↔ encode (assemble op wd w) = w := by
  have hrb : (rbField w).toFin = 0 ↔ rbField w = 0 := BitVec.toFin_inj (y := 0)
  have hsg : (sgField w).toFin = 0 ↔ sgField w = 0 := BitVec.toFin_inj (y := 0)
  have hsn : (snField w).toFin = 0 ↔ snField w = 0 := BitVec.toFin_inj (y := 0)
  rw [encode_assemble]
  cases op with
  | cadd | csub | cmul | cdiv | pack | unpack | zf | mmse =>
    simp [reservedFails, encodeFields_eq_iff, hop, hwc, hrb, hsg, hsn, and_comm, and_assoc]

/-- The check of R68 passes just the words of well-formed commands. -/
theorem rangeFails_eq_not_wf (op : Op) (wd : Width) (w : Word) : rangeFails op wd w = !(assemble op wd w).wf := by
  have hgroup (b : BitVec 4) (n : Nat) : decide (b.toNat + n - 1 > 15) = !decide (GroupFits b.toFin n) := by
    unfold GroupFits
    rw [← decide_not, decide_eq_decide, BitVec.val_toFin]
    omega
  have hsolver : (decide ((rdField w).toNat + 1 > 15) || decide ((raField w).toNat + 3 > 15) ||
      decide ((rbField w).toNat + 1 > 15)) = !decide (SolverFits (rdField w).toFin (raField w).toFin (rbField w).toFin) := by
    unfold SolverFits GroupFits
    simp only [← Bool.decide_or, ← decide_not, decide_eq_decide, BitVec.val_toFin]
    omega
  cases op with
  | cadd | csub | cmul | cdiv => cases wd <;> rfl
  | pack => cases wd <;> exact hgroup _ _
  | unpack => cases wd <;> exact hgroup _ _
  | zf | mmse => cases wd <;> exact hsolver

/-! ## The two directions of the code -/

/-- What an accepted word is: the word of a well-formed command (R67, R68). -/
theorem decode_eq_ok_iff {w : Word} {i : Instr} : decode w = .ok i ↔ encode i = w ∧ i.wf = true := by
  rw [decode_ok_iff]
  constructor
  · rintro ⟨op, wd, hop, hwc, hreserved, hrange, rfl⟩
    rw [rangeFails_eq_not_wf, Bool.not_eq_false'] at hrange
    exact ⟨(reservedFails_eq_false_iff (opCode_of_opOfField hop).symm (widthCode_of_widthOfField hwc).symm).mp hreserved,
      hrange⟩
  · rintro ⟨rfl, hwf⟩
    have hi := assemble_encode i
    obtain ⟨rd, ra, rb, sg, sn, hfields⟩ := encode_eq_encodeFields i
    have hop : opField (encode i) = opCode (Laws.opOf i) := by rw [hfields, opField_encodeFields]
    have hwc : wcField (encode i) = widthCode (Laws.widthOf i) := by rw [hfields, wcField_encodeFields]
    refine ⟨Laws.opOf i, Laws.widthOf i, ?_, ?_, ?_, ?_, hi⟩
    · rw [hop, opOfField_opCode]
    · rw [hwc, widthOfField_widthCode]
    · rw [reservedFails_eq_false_iff hop hwc, hi]
    · rw [rangeFails_eq_not_wf, hi, hwf]
      rfl

/-! ## The checks of R69 on the fields as numbers -/

/-- `op` names an operation (R66). -/
def LegalOpcode (w : Word) : Prop := w.toNat / 2 ^ 28 ∈ [1, 2, 3, 4, 5, 6, 8, 9]

/-- `wc` is the reserved width (R64). -/
def ReservedWidth (w : Word) : Prop := w.toNat / 2 ^ 26 % 4 = 3

/-- `z`, or a field that the operation does not use, is not zero (R67). -/
def ReservedNonzero (w : Word) : Prop :=
  let op := w.toNat / 2 ^ 28
  let rb := w.toNat / 2 ^ 14 % 16
  let sg := w.toNat / 2 ^ 12 % 4
  let sn := w.toNat / 2 ^ 10 % 4
  w.toNat % 2 ^ 10 ≠ 0 ∨ (op ∈ [1, 2, 3, 4] ∧ (sg ≠ 0 ∨ sn ≠ 0)) ∨ (op ∈ [5, 6] ∧ (rb ≠ 0 ∨ sg ≠ 0 ∨ sn ≠ 0)) ∨
    (op = 8 ∧ sn ≠ 0)

/-- A register group of the operation passes P15 (R68). -/
def GroupPastP15 (w : Word) : Prop :=
  let op := w.toNat / 2 ^ 28
  let rd := w.toNat / 2 ^ 22 % 16
  let ra := w.toNat / 2 ^ 18 % 16
  let rb := w.toNat / 2 ^ 14 % 16
  let count := 2 ^ (w.toNat / 2 ^ 26 % 4)
  (op = 5 ∧ ra + count - 1 > 15) ∨ (op = 6 ∧ rd + count - 1 > 15) ∨
    (op ∈ [8, 9] ∧ (rd + 1 > 15 ∨ ra + 3 > 15 ∨ rb + 1 > 15))

theorem opNumber_of_opOfField {w : Word} {op : Op} (h : opOfField (opField w) = some op) :
    w.toNat / 2 ^ 28 = (opCode op).toNat := by
  have hlt := w.isLt
  rw [opCode_of_opOfField h, opField_toNat]
  omega

theorem legalOpcode_iff {w : Word} : LegalOpcode w ↔ ∃ op, opOfField (opField w) = some op := by
  have hfield : ∀ b : BitVec 4, b.toNat ∈ [1, 2, 3, 4, 5, 6, 8, 9] ↔ ∃ op, opOfField b = some op := by
    intro b
    rw [← Option.isSome_iff_exists]
    revert b
    decide
  have hnumber : (opField w).toNat = w.toNat / 2 ^ 28 := by
    have hlt := w.isLt
    rw [opField_toNat]
    omega
  rw [LegalOpcode, ← hnumber, hfield]

theorem reservedWidth_iff {w : Word} : ReservedWidth w ↔ widthOfField (wcField w) = none := by
  have hfield : ∀ b : BitVec 2, b.toNat = 3 ↔ widthOfField b = none := by decide
  rw [ReservedWidth, ← hfield, wcField_toNat]
  rfl

/-- W = 2 ^ `wc` (R64). -/
theorem count_of_widthOfField {w : Word} {wd : Width} (h : widthOfField (wcField w) = some wd) :
    2 ^ (w.toNat / 2 ^ 26 % 4) = wd.count := by
  have hcode : (widthCode wd).toNat = w.toNat / 2 ^ 26 % 4 := by
    rw [widthCode_of_widthOfField h, wcField_toNat]
    rfl
  rw [← hcode]
  cases wd <;> rfl

theorem reservedFails_iff {w : Word} {op : Op} (h : opOfField (opField w) = some op) :
    reservedFails op w = true ↔ ReservedNonzero w := by
  have hop := opNumber_of_opOfField h
  simp only [Nat.reducePow] at hop
  cases op with
  | cadd | csub | cmul | cdiv | pack | unpack | zf | mmse =>
    simp [reservedFails, ReservedNonzero, hop, opCode, ← BitVec.toNat_inj, rbField_toNat, sgField_toNat, snField_toNat,
      zField_toNat, or_assoc]

theorem rangeFails_iff {w : Word} {op : Op} {wd : Width} (h : opOfField (opField w) = some op)
    (hw : widthOfField (wcField w) = some wd) : rangeFails op wd w = true ↔ GroupPastP15 w := by
  have hop := opNumber_of_opOfField h
  have hcount := count_of_widthOfField hw
  simp only [Nat.reducePow] at hop hcount
  cases op with
  | cadd | csub | cmul | cdiv | pack | unpack | zf | mmse =>
    simp [rangeFails, GroupPastP15, hop, hcount, opCode, rdField_toNat, raField_toNat, rbField_toNat, or_assoc]

/-! ## The outcome of every word (30_encoding.md R69) -/

theorem decode_of_not_legalOpcode {w : Word} (h : ¬LegalOpcode w) : decode w = .error .illegalOpcode := by
  rw [legalOpcode_iff, ← Option.isSome_iff_exists, Option.not_isSome_iff_eq_none] at h
  simp only [decode, h]

theorem decode_of_reservedWidth {w : Word} (h : LegalOpcode w) (hwc : ReservedWidth w) :
    decode w = .error .illegalWidth := by
  obtain ⟨op, hop⟩ := legalOpcode_iff.mp h
  simp only [decode, hop, reservedWidth_iff.mp hwc]

/-- A legal opcode and width name an operation and a width. -/
theorem fields_of_legal {w : Word} (h : LegalOpcode w) (hwc : ¬ReservedWidth w) :
    ∃ op wd, opOfField (opField w) = some op ∧ widthOfField (wcField w) = some wd := by
  obtain ⟨op, hop⟩ := legalOpcode_iff.mp h
  obtain ⟨wd, hwd⟩ := Option.ne_none_iff_exists'.mp (mt reservedWidth_iff.mpr hwc)
  exact ⟨op, wd, hop, hwd⟩

/-- With an operation and a width, the two checks on the other fields decide. -/
theorem decode_of_fields {w : Word} {op : Op} {wd : Width} (hop : opOfField (opField w) = some op)
    (hwd : widthOfField (wcField w) = some wd) :
    decode w = if reservedFails op w then .error .reservedNonzero
      else if rangeFails op wd w then .error .regRange else .ok (assemble op wd w) := by
  simp only [decode, hop, hwd]

theorem decode_of_reservedNonzero {w : Word} (h : LegalOpcode w) (hwc : ¬ReservedWidth w) (hres : ReservedNonzero w) :
    decode w = .error .reservedNonzero := by
  obtain ⟨op, wd, hop, hwd⟩ := fields_of_legal h hwc
  rw [← reservedFails_iff hop] at hres
  rw [decode_of_fields hop hwd, if_pos hres]

theorem decode_of_groupPastP15 {w : Word} (h : LegalOpcode w) (hwc : ¬ReservedWidth w) (hres : ¬ReservedNonzero w)
    (hrange : GroupPastP15 w) : decode w = .error .regRange := by
  obtain ⟨op, wd, hop, hwd⟩ := fields_of_legal h hwc
  rw [← reservedFails_iff hop] at hres
  rw [← rangeFails_iff hop hwd] at hrange
  rw [decode_of_fields hop hwd, if_neg hres, if_pos hrange]

/-- A word that passes the four checks is the word of a command. -/
theorem decode_of_passes {w : Word} (h : LegalOpcode w) (hwc : ¬ReservedWidth w) (hres : ¬ReservedNonzero w)
    (hrange : ¬GroupPastP15 w) : ∃ i, decode w = .ok i := by
  obtain ⟨op, wd, hop, hwd⟩ := fields_of_legal h hwc
  rw [← reservedFails_iff hop] at hres
  rw [← rangeFails_iff hop hwd] at hrange
  exact ⟨assemble op wd w, by rw [decode_of_fields hop hwd, if_neg hres, if_neg hrange]⟩

end Sys2Proof

namespace Sys2Proof.Machine

/-! ## The command transaction (30_encoding.md R60) -/

theorem runCmd_of_ok {w : Word} {i : Instr} (h : decode w = .ok i) (s : State) : runCmd w s = exec i s := by
  simp only [runCmd, h]

theorem runCmd_of_error {w : Word} {r : Reject} (h : decode w = .error r) (s : State) :
    runCmd w s = .next (s.answer (.completion (rejectCode r))) := by
  simp only [runCmd, h, reject_eq]

/-- A well-formed command completes with code 0 (R69). -/
theorem exec_of_wf {i : Instr} (h : i.wf = true) (s : State) :
    exec i s = .next ((s.applyWrites (commandWrites i s)).answer (.completion 0)) := by
  rw [exec_eq_complete_or_reject, if_pos h, complete_eq]

end Sys2Proof.Machine

namespace Sys2Proof.Proofs

open Sys2Proof.Machine

/-- Settles O1: the word of a well-formed command passes the checks of R69 and is assembled to that command. -/
theorem decodeOfEncode : Obligations.DecodeOfEncode :=
  fun _ hwf => decode_eq_ok_iff.mpr ⟨rfl, hwf⟩

/-- Settles O2: the reserved-field check leaves no bit outside the command, and the range check is its well-formedness. -/
theorem encodeOfDecode : Obligations.EncodeOfDecode :=
  fun _ _ => decode_eq_ok_iff.mp

/-- Settles O3: the four checks of R69 on the fields as numbers are those of the decoder, in its order, and what passes them
is the word of a well-formed command. -/
theorem decodingPriority : Obligations.DecodingPriority := by
  intro w s
  refine ⟨fun hop => ?_, fun hop hwc => ?_, fun hop hwc hres => ?_, fun hop hwc hres hrange => ?_,
    fun hop hwc hres hrange => ?_⟩
  · exact runCmd_of_error (decode_of_not_legalOpcode hop) s
  · exact runCmd_of_error (decode_of_reservedWidth hop hwc) s
  · exact runCmd_of_error (decode_of_reservedNonzero hop hwc hres) s
  · exact runCmd_of_error (decode_of_groupPastP15 hop hwc hres hrange) s
  · obtain ⟨i, hdec⟩ := decode_of_passes hop hwc hres hrange
    obtain ⟨henc, hwf⟩ := decode_eq_ok_iff.mp hdec
    exact ⟨i, _, hdec, henc, runCmd_of_ok hdec s, exec_of_wf hwf s, by simp⟩

/-- Settles O4: each word of the table is the word that the encoder gives its well-formed command. -/
theorem workedEncodings : Obligations.WorkedEncodings := by
  and_intros <;> exact decode_eq_ok_iff.mpr ⟨rfl, rfl⟩

/-- Settles O29: the range check that both meanings begin with fails. -/
theorem solverGroupPastP15 : Obligations.SolverGroupPastP15 := by
  intro w rd ra rb sg sn s hpast
  have hnot : solverOk rd ra rb = false := by
    rw [Bool.eq_false_iff, ne_eq, solverOk_iff]
    omega
  rw [exec_zf, exec_mmse, hnot]
  exact ⟨reject_eq s .regRange, reject_eq s .regRange⟩

/-- Settles O39: at width 1 each group is a single register, so the two commands make the same write. -/
theorem cmovSpellings : Obligations.CmovSpellings := by
  intro rd ra s
  have hwrites : packWrites .w1 rd ra s = unpackWrites .w1 rd ra s := by
    simp [packWrites, unpackWrites, instances]
  have hpack : exec (.packW1 rd ra) s = s.complete (packWrites .w1 rd ra s) :=
    (exec_pack .w1 rd ra s).trans (if_pos (groupOk_iff.mpr (Nat.le_of_lt_succ ra.isLt)))
  have hunpack : exec (.unpackW1 rd ra) s = s.complete (unpackWrites .w1 rd ra s) :=
    (exec_unpack .w1 rd ra s).trans (if_pos (groupOk_iff.mpr (Nat.le_of_lt_succ rd.isLt)))
  refine ⟨by rw [hpack, hunpack, hwrites], _, hpack.trans (complete_eq ..), ?_⟩
  simp [c_packWrites, Width.count]

/-- Settles O41: the step performs the transaction, and a command word that decodes is performed by its meaning. -/
theorem stepRunsDecodedCommand : Obligations.StepRunsDecodedCommand := by
  intro s w rest i hpending hdec
  rw [step_of_pending hpending]
  exact runCmd_of_ok hdec _

end Sys2Proof.Proofs
end

section
/-! Rounding is to the nearest finite value, ties to even (40_complex_arith.md R81(a)). A finite magnitude is a significand
below 2^24 times a power of two; the rounding of n/d takes the nearest multiple of 2^k, where 2^k is the spacing of the values
around n/d, and no value between two such multiples is nearer. -/

namespace Sys2Proof.Machine

/-! ## A magnitude as a significand times a power of two (40_complex_arith.md R80) -/

/-- The factor of 2^(binade) in the magnitude of a pattern: `f` for a zero or a subnormal, 2^23 + f for a normal. -/
def significand (a : Word) : Nat := if expField a = 0 then fracField a else 2 ^ 23 + fracField a

/-- The exponent of two in the magnitude of a pattern, in units of 2^-149. -/
def binade (a : Word) : Nat := expField a - 1

theorem fracField_lt (a : Word) : fracField a < 2 ^ 23 := by
  rw [fracField_eq]; omega

theorem expField_le (a : Word) : expField a ≤ 255 := by
  rw [expField_eq]; omega

theorem magUnits_eq_significand (a : Word) : magUnits a = significand a * 2 ^ binade a := by
  simp only [magUnits, significand, binade]
  split
  · next h => simp [h]
  · rfl

theorem significand_lt (a : Word) : significand a < 2 ^ 24 := by
  have := fracField_lt a
  unfold significand
  split <;> omega

/-- Outside the lowest binade a significand has its leading bit. -/
theorem binade_eq_zero_or_le_significand (a : Word) : binade a = 0 ∨ 2 ^ 23 ≤ significand a := by
  unfold binade significand
  split <;> omega

theorem binade_le_of_isFinite {a : Word} (h : isFinite a = true) : binade a ≤ 253 := by
  have := expField_le a
  simp only [isFinite, bne_iff_ne] at h
  unfold binade
  omega

/-- A significand and its binade give back the two fields. -/
theorem fields_eq_of_significand_eq {a b : Word} (hs : significand a = significand b) (hb : binade a = binade b) :
    expField a = expField b ∧ fracField a = fracField b := by
  have := fracField_lt a
  have := fracField_lt b
  unfold significand at hs
  unfold binade at hb
  split at hs <;> split at hs <;> omega

/-- No magnitude has two forms. -/
theorem significand_unique {t t' k k' : Nat} (h : t * 2 ^ k = t' * 2 ^ k') (ht : t < 2 ^ 24) (ht' : t' < 2 ^ 24)
    (hk : k = 0 ∨ 2 ^ 23 ≤ t) (hk' : k' = 0 ∨ 2 ^ 23 ≤ t') : t = t' ∧ k = k' := by
  wlog hle : k ≤ k' generalizing t t' k k'
  · obtain ⟨ht, hk⟩ := this h.symm ht' ht hk' hk (by omega)
    exact ⟨ht.symm, hk.symm⟩
  obtain ⟨j, rfl⟩ := Nat.exists_eq_add_of_le hle
  have hscaled : t = t' * 2 ^ j := by
    rw [Nat.pow_add, Nat.mul_comm (2 ^ k), ← Nat.mul_assoc] at h
    exact Nat.eq_of_mul_eq_mul_right (Nat.two_pow_pos k) h
  cases j with
  | zero => simpa using hscaled
  | succ j =>
    have hbit : 2 ^ 23 ≤ t' := by omega
    have hdouble : t' * 2 ^ 1 ≤ t' * 2 ^ (j + 1) := Nat.mul_le_mul_left _ (Nat.pow_le_pow_right (by decide) (by omega))
    omega

/-- Patterns of one sign and one magnitude are equal. -/
theorem eq_of_magUnits_eq {a b : Word} (hs : signBit a = signBit b) (h : magUnits a = magUnits b) : a = b := by
  rw [magUnits_eq_significand, magUnits_eq_significand] at h
  obtain ⟨hsig, hbin⟩ := significand_unique h (significand_lt a) (significand_lt b)
    (binade_eq_zero_or_le_significand a) (binade_eq_zero_or_le_significand b)
  obtain ⟨he, hf⟩ := fields_eq_of_significand_eq hsig hbin
  exact eq_of_fields hs he hf

/-- The largest finite value is below the overflow threshold 2^128 - 2^103 (R81(a)). -/
theorem magUnits_lt_of_isFinite {a : Word} (h : isFinite a = true) : magUnits a < (2 ^ 25 - 1) * 2 ^ 252 := by
  have hsig : significand a ≤ 2 ^ 24 - 1 := Nat.le_sub_one_of_lt (significand_lt a)
  calc magUnits a = significand a * 2 ^ binade a := magUnits_eq_significand a
    _ ≤ (2 ^ 24 - 1) * 2 ^ 253 := Nat.mul_le_mul hsig (Nat.pow_le_pow_right (by decide) (binade_le_of_isFinite h))
    _ < (2 ^ 25 - 1) * 2 ^ 252 := by decide

/-- The pattern k · 2^23 + t has magnitude t · 2^k: on the subnormal grid, in a normal binade, and where t = 2^24 carries into
the exponent field. -/
theorem magUnits_withSign {sg : Bool} {k t : Nat} (hlt : k * 2 ^ 23 + t < 2 ^ 31) (ht : t ≤ 2 ^ 24)
    (hk : k = 0 ∨ 2 ^ 23 ≤ t) : magUnits (withSign sg (k * 2 ^ 23 + t)) = t * 2 ^ k := by
  unfold magUnits
  rw [expField_withSign hlt, fracField_withSign hlt]
  rcases (by omega : (k = 0 ∧ t < 2 ^ 23) ∨ (2 ^ 23 ≤ t ∧ t < 2 ^ 24) ∨ t = 2 ^ 24) with ⟨rfl, h⟩ | h | rfl
  · rw [if_pos (by omega), Nat.pow_zero]
    omega
  · rw [if_neg (by omega), show (k * 2 ^ 23 + t) / 2 ^ 23 - 1 = k by omega,
      show 2 ^ 23 + (k * 2 ^ 23 + t) % 2 ^ 23 = t by omega]
  · rw [if_neg (by omega), show (k * 2 ^ 23 + 2 ^ 24) / 2 ^ 23 - 1 = k + 1 by omega,
      show 2 ^ 23 + (k * 2 ^ 23 + 2 ^ 24) % 2 ^ 23 = 2 ^ 23 by omega, Nat.pow_succ]
    omega

/-! ## The grid on which n/d is rounded -/

/-- The multiples of 2^(this) are the representable values around n/d. -/
def roundShift (n d : Nat) : Nat := Nat.log2 (n / d) - 23

/-- How many times 2^(roundShift n d) the rounded n/d is. -/
def roundTicks (n d : Nat) : Nat := nearestEven n (d * 2 ^ roundShift n d)

theorem roundMag_eq (n d : Nat) : roundMag n d = min (roundShift n d * 2 ^ 23 + roundTicks n d) infMag := rfl

/-- n/d is below 2^24 grid steps, and from 2^23 on unless the grid is the finest. -/
theorem roundShift_bounds {n d : Nat} (hd : 0 < d) :
    n < 2 ^ 24 * (d * 2 ^ roundShift n d) ∧ (roundShift n d = 0 ∨ 2 ^ 23 * (d * 2 ^ roundShift n d) ≤ n) := by
  have hmul (j : Nat) : 2 ^ j * (d * 2 ^ roundShift n d) = 2 ^ (j + roundShift n d) * d := by
    rw [Nat.pow_add]; ring
  rw [hmul, hmul, ← Nat.div_lt_iff_lt_mul hd, ← Nat.le_div_iff_mul_le hd]
  constructor
  · exact Nat.lt_log2_self.trans_le (Nat.pow_le_pow_right (by decide) (by unfold roundShift; omega))
  · refine or_iff_not_imp_left.mpr fun hpos => ?_
    rw [show 23 + roundShift n d = Nat.log2 (n / d) by unfold roundShift at hpos ⊢; omega]
    refine Nat.log2_self_le fun hzero => hpos ?_
    rw [roundShift, hzero, Nat.log2_zero]

theorem roundTicks_le {n d : Nat} (hd : 0 < d) : roundTicks n d ≤ 2 ^ 24 := by
  have hD : 0 < d * 2 ^ roundShift n d := Nat.mul_pos hd (Nat.two_pow_pos _)
  obtain ⟨hup, -, -⟩ := nearestEven_spec (n := n) hD
  obtain ⟨hlt, -⟩ := roundShift_bounds (n := n) hd
  by_contra hgt
  have : (2 ^ 24 + 1) * (d * 2 ^ roundShift n d) ≤ roundTicks n d * (d * 2 ^ roundShift n d) :=
    Nat.mul_le_mul_right _ (by omega)
  unfold roundTicks at this
  omega

theorem roundShift_eq_zero_or_le_roundTicks {n d : Nat} (hd : 0 < d) :
    roundShift n d = 0 ∨ 2 ^ 23 ≤ roundTicks n d := by
  have hD : 0 < d * 2 ^ roundShift n d := Nat.mul_pos hd (Nat.two_pow_pos _)
  obtain ⟨-, hdown, -⟩ := nearestEven_spec (n := n) hD
  obtain ⟨-, hge⟩ := roundShift_bounds (n := n) hd
  refine hge.imp_right fun hge => ?_
  by_contra hlt
  have : roundTicks n d * (d * 2 ^ roundShift n d) ≤ (2 ^ 23 - 1) * (d * 2 ^ roundShift n d) :=
    Nat.mul_le_mul_right _ (by omega)
  unfold roundTicks at this
  omega

/-! ## No value is nearer -/

/-- No multiple of d is nearer to n than the one `nearestEven` takes, and where another one is as near, it takes the even. -/
theorem nearestEven_nearest {d : Nat} (hd : 0 < d) (n j : Nat) :
    ((nearestEven n d * d : Nat) - n : Int).natAbs ≤ ((j * d : Nat) - n : Int).natAbs ∧
      (((nearestEven n d * d : Nat) - n : Int).natAbs = ((j * d : Nat) - n : Int).natAbs → j ≠ nearestEven n d →
        nearestEven n d % 2 = 0) := by
  obtain ⟨hup, hdown, heven⟩ := nearestEven_spec (n := n) hd
  rcases Nat.lt_trichotomy j (nearestEven n d) with hlt | rfl | hgt
  · have : (j + 1) * d ≤ nearestEven n d * d := Nat.mul_le_mul_right _ hlt
    rw [Nat.add_mul] at this
    exact ⟨by omega, fun heq _ => heven (by omega)⟩
  · exact ⟨le_rfl, fun _ h => absurd rfl h⟩
  · have : (nearestEven n d + 1) * d ≤ j * d := Nat.mul_le_mul_right _ hgt
    rw [Nat.add_mul] at this
    exact ⟨by omega, fun heq _ => heven (by omega)⟩

/-- A magnitude on the grid is a multiple of the step; one off the grid is below 2^23 steps, which n/d is not. -/
theorem magUnits_on_grid_or_lt {n d : Nat} (hd : 0 < d) (c : Word) :
    (∃ j, magUnits c = j * 2 ^ roundShift n d) ∨
      (magUnits c * d < 2 ^ 23 * (d * 2 ^ roundShift n d) ∧ 2 ^ 23 * (d * 2 ^ roundShift n d) ≤ n) := by
  rw [magUnits_eq_significand]
  rcases Nat.lt_or_ge (binade c) (roundShift n d) with hlt | hge
  · obtain ⟨-, hge⟩ := roundShift_bounds (n := n) hd
    refine .inr ⟨?_, hge.resolve_left (by omega)⟩
    calc significand c * 2 ^ binade c * d < 2 ^ 24 * 2 ^ binade c * d := by
          have := significand_lt c
          gcongr
      _ = 2 ^ 23 * (d * 2 ^ (binade c + 1)) := by rw [Nat.pow_succ]; ring
      _ ≤ 2 ^ 23 * (d * 2 ^ roundShift n d) := by gcongr <;> omega
  · obtain ⟨j, hj⟩ := Nat.exists_eq_add_of_le hge
    exact .inl ⟨significand c * 2 ^ j, by rw [hj, Nat.pow_add]; ring⟩

/-- No magnitude is nearer to n/d than the rounded one; where another one is as near, the rounded one is even. -/
theorem roundTicks_nearest {n d : Nat} (hd : 0 < d) (c : Word) :
    ((roundTicks n d * 2 ^ roundShift n d * d : Nat) - n : Int).natAbs ≤ ((magUnits c * d : Nat) - n : Int).natAbs ∧
      (((roundTicks n d * 2 ^ roundShift n d * d : Nat) - n : Int).natAbs = ((magUnits c * d : Nat) - n : Int).natAbs →
        magUnits c ≠ roundTicks n d * 2 ^ roundShift n d → roundTicks n d % 2 = 0) := by
  have hD : 0 < d * 2 ^ roundShift n d := Nat.mul_pos hd (Nat.two_pow_pos _)
  have hstep (j : Nat) : j * 2 ^ roundShift n d * d = j * (d * 2 ^ roundShift n d) := by ring
  rcases magUnits_on_grid_or_lt (n := n) hd c with ⟨j, hj⟩ | ⟨hoff, hge⟩
  · obtain ⟨hle, heven⟩ := nearestEven_nearest hD n j
    rw [hj, hstep, hstep]
    exact ⟨hle, fun heq hne => heven heq fun h => hne (congrArg (· * 2 ^ roundShift n d) h)⟩
  · obtain ⟨hle, -⟩ := nearestEven_nearest hD n (2 ^ 23)
    rw [hstep]
    unfold roundTicks
    exact ⟨by omega, fun heq => by omega⟩

/-! ## Overflow (40_complex_arith.md R81(a)) -/

/-- A quotient from 2^e on has its leading bit at e or above. -/
theorem le_roundShift {n d j : Nat} (hd : 0 < d) (h : 2 ^ (j + 23) * d ≤ n) : j ≤ roundShift n d := by
  have hq : 2 ^ (j + 23) ≤ n / d := (Nat.le_div_iff_mul_le hd).mpr h
  have hpos : n / d ≠ 0 := by have := Nat.two_pow_pos (j + 23); omega
  have := (Nat.le_log2 hpos).mpr hq
  unfold roundShift
  omega

theorem roundShift_le {n d j : Nat} (hd : 0 < d) (h : n < 2 ^ (j + 24) * d) : roundShift n d ≤ j := by
  have hq : n / d < 2 ^ (j + 24) := (Nat.div_lt_iff_lt_mul hd).mpr h
  unfold roundShift
  by_cases hpos : n / d = 0
  · simp [hpos]
  · have := (Nat.log2_lt hpos).mpr hq
    omega

/-- From 2^128 - 2^103 on, which is half a step past the largest finite value, the pattern reaches that of infinity. -/
theorem roundMag_of_overflow {n d : Nat} (hd : 0 < d) (h : (2 ^ 25 - 1) * 2 ^ 252 * d ≤ n) : roundMag n d = infMag := by
  have hshift : 253 ≤ roundShift n d := le_roundShift hd (by omega)
  have hticks := (roundShift_eq_zero_or_le_roundTicks (n := n) hd).resolve_left (by omega)
  rw [roundMag_eq]
  refine Nat.min_eq_right ?_
  rcases hshift.eq_or_lt with heq | hlt
  · have hD : 0 < d * 2 ^ 253 := by omega
    obtain ⟨-, hdown, heven⟩ := nearestEven_spec (n := n) hD
    have hfull : 2 ^ 24 ≤ roundTicks n d := by
      rw [roundTicks, ← heq]
      by_contra hless
      have : nearestEven n (d * 2 ^ 253) * (d * 2 ^ 253) ≤ (2 ^ 24 - 1) * (d * 2 ^ 253) :=
        Nat.mul_le_mul_right _ (by omega)
      have hodd := heven (.inr (by omega))
      have : nearestEven n (d * 2 ^ 253) * (d * 2 ^ 253) ≤ (2 ^ 24 - 2) * (d * 2 ^ 253) :=
        Nat.mul_le_mul_right _ (by omega)
      omega
    rw [← heq, infMag]
    omega
  · rw [infMag]
    omega

theorem roundMag_of_not_overflow {n d : Nat} (hd : 0 < d) (h : n < (2 ^ 25 - 1) * 2 ^ 252 * d) :
    roundMag n d = roundShift n d * 2 ^ 23 + roundTicks n d ∧ roundMag n d < infMag := by
  have hlt : roundShift n d * 2 ^ 23 + roundTicks n d < infMag := by
    have hshift : roundShift n d ≤ 253 := roundShift_le hd (by omega)
    have hticks := roundTicks_le (n := n) hd
    rcases hshift.eq_or_lt with heq | hless
    · have hD : 0 < d * 2 ^ 253 := by omega
      obtain ⟨hup, -, -⟩ := nearestEven_spec (n := n) hD
      have hfull : roundTicks n d < 2 ^ 24 := by
        rw [roundTicks, heq]
        by_contra hge
        have : 2 ^ 24 * (d * 2 ^ 253) ≤ nearestEven n (d * 2 ^ 253) * (d * 2 ^ 253) :=
          Nat.mul_le_mul_right _ (by omega)
        omega
      rw [heq, infMag]
      omega
    · rw [infMag]
      omega
  have hmin := Nat.min_eq_left hlt.le
  rw [roundMag_eq, hmin]
  exact ⟨rfl, hlt⟩

/-! ## The rounded result as a signed value -/

@[simp] theorem signBit_roundReal (sg : Bool) (n d : Nat) : signBit (roundReal sg n d) = sg :=
  signBit_withSign (roundMag_lt n d)

/-- How far a value of the sign of `num` is from `num` is a matter of the magnitudes. -/
theorem distance_of_same_sign {c : Word} {num : Int} (hs : signBit c = decide (num < 0)) (den : Nat) :
    (units c * den - num).natAbs = ((magUnits c * den : Nat) - num.natAbs : Int).natAbs := by
  unfold units
  rw [hs]
  simp only [decide_eq_true_eq]
  split
  · rw [Int.neg_mul, Int.natCast_mul]
    omega
  · rw [Int.natCast_mul]
    omega

theorem distance_of_other_sign {c : Word} {num : Int} (hs : signBit c ≠ decide (num < 0)) (den : Nat) :
    (units c * den - num).natAbs = magUnits c * den + num.natAbs := by
  have hprod : 0 ≤ (magUnits c * den : Int) := by positivity
  have habs : ((magUnits c * den : Nat) : Int) = magUnits c * den := Int.natCast_mul ..
  unfold units
  by_cases hneg : num < 0
  · simp only [hneg, decide_true, ne_eq, Bool.not_eq_true] at hs
    rw [hs, if_neg Bool.false_ne_true]
    omega
  · simp only [hneg, decide_false, ne_eq, Bool.not_eq_false] at hs
    rw [hs, if_pos rfl, Int.neg_mul]
    omega

/-- No finite value is nearer to num/den than the rounded one; where another one is as near, fraction bit 0 is 0 (R81(a)). -/
theorem roundReal_nearest {num : Int} {den : Nat} (hden : 0 < den) {r : Word} (hs : signBit r = decide (num < 0))
    (hmag : magUnits r = roundTicks num.natAbs den * 2 ^ roundShift num.natAbs den) (c : Word) :
    (units r * den - num).natAbs ≤ (units c * den - num).natAbs ∧
      ((units r * den - num).natAbs = (units c * den - num).natAbs → units c ≠ units r →
        roundTicks num.natAbs den % 2 = 0) := by
  rw [distance_of_same_sign hs, hmag]
  by_cases hc : signBit c = decide (num < 0)
  · obtain ⟨hle, heven⟩ := roundTicks_nearest (n := num.natAbs) hden c
    rw [distance_of_same_sign hc]
    refine ⟨hle, fun heq hne => heven heq fun h => hne ?_⟩
    rw [units, units, hc, hs, hmag, h]
  · -- A value of the other sign is no nearer than zero.
    obtain ⟨hle, heven⟩ := roundTicks_nearest (n := num.natAbs) hden pzero
    have hzero : magUnits pzero = 0 := by decide
    rw [hzero, Nat.zero_mul] at hle heven
    rw [distance_of_other_sign hc]
    refine ⟨by omega, fun heq hne => heven (by omega) fun h => hne ?_⟩
    have hczero : magUnits c = 0 := by
      have : magUnits c * den = 0 := by omega
      exact (Nat.mul_eq_zero.mp this).resolve_right (by omega)
    rw [units, units, hczero, hmag, ← h]
    simp

/-- `roundReal` rounds once, by roundTiesToEven (R81(a)). -/
theorem roundsTo_roundReal (num : Int) {den : Nat} (hden : 0 < den) :
    RoundsTo num den (roundReal (decide (num < 0)) num.natAbs den) := by
  refine ⟨signBit_roundReal .., ?_⟩
  split
  · next hover =>
    rw [roundReal, roundMag_of_overflow hden hover, ← signedInf]
    cases decide (num < 0) <;> decide
  · next hfits =>
    obtain ⟨heq, hlt⟩ := roundMag_of_not_overflow hden (Nat.lt_of_not_le hfits)
    have hlt31 := roundMag_lt num.natAbs den
    have hr := signBit_roundReal (decide (num < 0)) num.natAbs den
    have hmag : magUnits (roundReal (decide (num < 0)) num.natAbs den) =
        roundTicks num.natAbs den * 2 ^ roundShift num.natAbs den := by
      rw [heq] at hlt31
      rw [roundReal, heq, magUnits_withSign hlt31 (roundTicks_le hden) (roundShift_eq_zero_or_le_roundTicks hden)]
    constructor
    · rw [isFinite, roundReal, expField_withSign hlt31, bne_iff_ne]
      unfold infMag at hlt
      omega
    · intro c _
      obtain ⟨hle, heven⟩ := roundReal_nearest hden hr hmag c
      refine ⟨hle, fun hdist hne => ?_⟩
      have := heven hdist hne
      rw [roundReal, fracField_withSign hlt31, heq]
      omega

/-- A value that is representable is not changed by rounding. -/
theorem eq_of_roundsTo_units {a r : Word} (ha : isFinite a = true) (hs : signBit a = decide (units a < 0))
    (h : RoundsTo (units a) 1 r) : r = a := by
  obtain ⟨hsign, hround⟩ := h
  have habs : (units a).natAbs = magUnits a := by unfold units; split <;> omega
  have hfits := magUnits_lt_of_isFinite ha
  rw [if_neg (by omega)] at hround
  obtain ⟨-, hnearest⟩ := hround
  obtain ⟨hle, -⟩ := hnearest a ha
  have hunits : units r = units a := by omega
  refine eq_of_magUnits_eq (hsign.trans hs.symm) ?_
  rw [units, units, hsign, hs] at hunits
  split at hunits <;> omega

end Sys2Proof.Machine
end

section
/-! The real primitives case by case (40_complex_arith.md R82 to R86): which class excludes which, one equation per case of each
primitive, and from these what the spec says of them beside their cases: commutativity, the sign of a difference, and the one
NaN (R81(c)). -/

namespace Sys2Proof.Machine

/-! ## The classes of a pattern (40_complex_arith.md R80) -/

theorem isFinite_iff {a : Word} : isFinite a = true ↔ isNaN a = false ∧ isInf a = false := by
  simp [isFinite_eq]

theorem isNaN_or_isInf_or_isFinite (a : Word) : isNaN a = true ∨ isInf a = true ∨ isFinite a = true := by
  rw [isFinite_iff]
  cases isNaN a <;> cases isInf a <;> simp

theorem isInf_or_isFinite {a : Word} (h : isNaN a = false) : isInf a = true ∨ isFinite a = true := by
  rw [isFinite_eq, h]
  cases isInf a <;> simp

theorem isNaN_of_isInf {a : Word} (h : isInf a = true) : isNaN a = false := by
  simp only [isInf, Bool.and_eq_true, beq_iff_eq] at h
  simp [isNaN, h]

theorem isZero_of_isInf {a : Word} (h : isInf a = true) : isZero a = false := by
  simp only [isInf, Bool.and_eq_true, beq_iff_eq] at h
  simp [isZero, h]

theorem isFinite_of_isZero {a : Word} (h : isZero a = true) : isFinite a = true := by
  simp only [isZero, Bool.and_eq_true, beq_iff_eq] at h
  simp [isFinite, h]

/-- There is one infinity of each sign. -/
theorem eq_of_isInf {a b : Word} (ha : isInf a = true) (hb : isInf b = true) (hs : signBit a = signBit b) : a = b := by
  simp only [isInf, Bool.and_eq_true, beq_iff_eq] at ha hb
  exact eq_of_fields hs (ha.1.trans hb.1.symm) (ha.2.trans hb.2.symm)

/-- There is one zero of each sign. -/
theorem eq_of_isZero {a b : Word} (ha : isZero a = true) (hb : isZero b = true) (hs : signBit a = signBit b) : a = b :=
  eq_of_magUnits_eq hs ((magUnits_eq_zero.mpr ha).trans (magUnits_eq_zero.mpr hb).symm)

/-! ## Signed values -/

theorem units_eq_zero {a : Word} : units a = 0 ↔ isZero a = true := by
  rw [← magUnits_eq_zero]
  unfold units
  split <;> omega

theorem natAbs_units (a : Word) : (units a).natAbs = magUnits a := by
  unfold units
  split <;> omega

/-- The sign bit of a value that is not zero is the sign of the value. -/
theorem signBit_eq_of_not_isZero {a : Word} (h : isZero a = false) : signBit a = decide (units a < 0) := by
  have hmag : magUnits a ≠ 0 := fun h0 => by simp [magUnits_eq_zero.mp h0] at h
  unfold units
  cases signBit a
  · simp
  · simp only [if_true, true_eq_decide_iff]
    omega

/-- Patterns of one value are equal, but for the two zeros. -/
theorem eq_of_units_eq {a b : Word} (h : units a = units b) (hz : isZero a = false) : a = b := by
  have hzb : isZero b = false := by
    rw [Bool.eq_false_iff, ne_eq, ← units_eq_zero, ← h, units_eq_zero, hz]
    exact Bool.false_ne_true
  refine eq_of_magUnits_eq ?_ ?_
  · rw [signBit_eq_of_not_isZero hz, signBit_eq_of_not_isZero hzb, h]
  · rw [← natAbs_units, ← natAbs_units, h]

theorem units_nonneg {a : Word} (h : signBit a = false) : 0 ≤ units a := by
  rw [units, h]
  simp

/-! ## The patterns of a sign -/

@[simp] theorem isInf_signedInf (sg : Bool) : isInf (signedInf sg) = true := by cases sg <;> decide
@[simp] theorem signBit_signedInf (sg : Bool) : signBit (signedInf sg) = sg := by cases sg <;> decide
@[simp] theorem isZero_signedZero (sg : Bool) : isZero (signedZero sg) = true := by cases sg <;> decide
@[simp] theorem signBit_signedZero (sg : Bool) : signBit (signedZero sg) = sg := by cases sg <;> decide
@[simp] theorem isNaN_signedInf (sg : Bool) : isNaN (signedInf sg) = false := by cases sg <;> decide
@[simp] theorem isNaN_signedZero (sg : Bool) : isNaN (signedZero sg) = false := by cases sg <;> decide
@[simp] theorem isZero_pzero : isZero pzero = true := by decide
@[simp] theorem isZero_nzero : isZero nzero = true := by decide
@[simp] theorem isNaN_pzero : isNaN pzero = false := by decide
@[simp] theorem isNaN_nzero : isNaN nzero = false := by decide
@[simp] theorem signBit_pzero : signBit pzero = false := by decide
@[simp] theorem fneg_pzero : fneg pzero = nzero := by decide
@[simp] theorem fneg_nzero : fneg nzero = pzero := by decide
@[simp] theorem fneg_signedInf (sg : Bool) : fneg (signedInf sg) = signedInf !sg := by cases sg <;> decide
@[simp] theorem fneg_signedZero (sg : Bool) : fneg (signedZero sg) = signedZero !sg := by cases sg <;> decide

@[simp] theorem fneg_roundReal (sg : Bool) (n d : Nat) : fneg (roundReal sg n d) = roundReal (!sg) n d := by
  have hlt := roundMag_lt n d
  refine eq_of_fields (by simp) ?_ ?_
  · rw [expField_fneg, roundReal, roundReal, expField_withSign hlt, expField_withSign hlt]
  · rw [fracField_fneg, roundReal, roundReal, fracField_withSign hlt, fracField_withSign hlt]

theorem getLsbD_fneg (a : Word) {i : Nat} (hi : i < 32) :
    (fneg a).getLsbD i = if i = 31 then !a.getLsbD 31 else a.getLsbD i := by
  have hmask : ∀ j < 32, (0x80000000 : Word).getLsbD j = decide (j = 31) := by decide
  rw [fneg, BitVec.getLsbD_xor, hmask i hi]
  split
  · next h => simp [h]
  · next h => simp [h]

/-! ## Addition, case by case (40_complex_arith.md R82) -/

theorem fadd_of_isNaN {a b : Word} (h : isNaN a = true ∨ isNaN b = true) : fadd a b = cnan := by
  simp [fadd, h]

theorem fadd_of_opposite_infinities {a b : Word} (ha : isInf a = true) (hb : isInf b = true)
    (hs : signBit a ≠ signBit b) : fadd a b = cnan := by
  simp [fadd, ha, hb, hs]

theorem fadd_of_isInf_left {a b : Word} (ha : isInf a = true) (hb : isNaN b = false)
    (hs : isInf b = true → signBit a = signBit b) : fadd a b = a := by
  simp +contextual [fadd, isNaN_of_isInf ha, ha, hb, hs]

theorem fadd_of_isInf_right {a b : Word} (hb : isInf b = true) (ha : isFinite a = true) : fadd a b = b := by
  obtain ⟨hnan, hinf⟩ := isFinite_iff.mp ha
  simp [fadd, hnan, hinf, hb, isNaN_of_isInf hb]

theorem fadd_of_zeros {a b : Word} (ha : isZero a = true) (hb : isZero b = true) :
    fadd a b = if signBit a = true ∧ signBit b = true then nzero else pzero := by
  obtain ⟨hna, hia⟩ := isFinite_iff.mp (isFinite_of_isZero ha)
  obtain ⟨hnb, hib⟩ := isFinite_iff.mp (isFinite_of_isZero hb)
  simp [fadd, hna, hia, hnb, hib, ha, hb]

theorem fadd_of_cancel {a b : Word} (ha : isFinite a = true) (hb : isFinite b = true) (hz : isZero a = false)
    (hsum : units a + units b = 0) : fadd a b = pzero := by
  obtain ⟨hna, hia⟩ := isFinite_iff.mp ha
  obtain ⟨hnb, hib⟩ := isFinite_iff.mp hb
  simp [fadd, hna, hia, hnb, hib, hz, hsum]

theorem fadd_of_sum_ne_zero {a b : Word} (ha : isFinite a = true) (hb : isFinite b = true)
    (hsum : units a + units b ≠ 0) :
    fadd a b = roundReal (decide (units a + units b < 0)) (units a + units b).natAbs 1 := by
  obtain ⟨hna, hia⟩ := isFinite_iff.mp ha
  obtain ⟨hnb, hib⟩ := isFinite_iff.mp hb
  have hz : ¬(isZero a = true ∧ isZero b = true) := fun ⟨hza, hzb⟩ =>
    hsum (by rw [units_eq_zero.mpr hza, units_eq_zero.mpr hzb, Int.add_zero])
  simp [fadd, hna, hia, hnb, hib, hz, hsum]

/-- The sum of finite values that is not zero is rounded once (R81(a)). -/
theorem roundsTo_fadd {a b : Word} (ha : isFinite a = true) (hb : isFinite b = true) (hsum : units a + units b ≠ 0) :
    RoundsTo (units a + units b) 1 (fadd a b) := by
  rw [fadd_of_sum_ne_zero ha hb hsum]
  exact roundsTo_roundReal _ Nat.one_pos

/-- Adding a zero changes no other value (R82). -/
theorem fadd_zero {a b : Word} (hb : isZero b = true) (hz : isZero a = false) (hn : isNaN a = false) : fadd a b = a := by
  rcases isInf_or_isFinite hn with hinf | hfin
  · obtain ⟨hnb, hib⟩ := isFinite_iff.mp (isFinite_of_isZero hb)
    exact fadd_of_isInf_left hinf hnb (by simp [hib])
  · have hub := units_eq_zero.mpr hb
    have hua : units a ≠ 0 := fun h => by simp [units_eq_zero.mp h] at hz
    have hround := roundsTo_fadd hfin (isFinite_of_isZero hb) (by omega)
    rw [hub, Int.add_zero] at hround
    exact eq_of_roundsTo_units hfin (signBit_eq_of_not_isZero hz) hround

/-- Two infinities add to the one they both are, or to a NaN, in either order. -/
theorem fadd_comm_of_isInf {a b : Word} (ha : isInf a = true) (hb : isInf b = true) : fadd a b = fadd b a := by
  by_cases hs : signBit a = signBit b
  · rw [eq_of_isInf ha hb hs]
  · rw [fadd_of_opposite_infinities ha hb hs, fadd_of_opposite_infinities hb ha (Ne.symm hs)]

theorem fadd_comm_of_isFinite {a b : Word} (ha : isFinite a = true) (hb : isFinite b = true) : fadd a b = fadd b a := by
  by_cases hsum : units a + units b = 0
  · cases hz : isZero a with
    | true =>
      have hzb : isZero b = true := by
        have := units_eq_zero.mpr hz
        exact units_eq_zero.mp (by omega)
      simp only [fadd_of_zeros hz hzb, fadd_of_zeros hzb hz, and_comm]
    | false =>
      have hzb : isZero b = false := by
        rw [Bool.eq_false_iff, ne_eq, ← units_eq_zero] at hz ⊢
        omega
      rw [fadd_of_cancel ha hb hz hsum, fadd_of_cancel hb ha hzb (by omega)]
  · rw [fadd_of_sum_ne_zero ha hb hsum, fadd_of_sum_ne_zero hb ha (by omega), Int.add_comm]

theorem fadd_comm_of_isInf_isFinite {a b : Word} (ha : isInf a = true) (hb : isFinite b = true) :
    fadd a b = fadd b a := by
  obtain ⟨hnb, hib⟩ := isFinite_iff.mp hb
  rw [fadd_of_isInf_left ha hnb (by simp [hib]), fadd_of_isInf_right ha hb]

/-- Addition is commutative bit for bit (R82). -/
theorem fadd_comm (a b : Word) : fadd a b = fadd b a := by
  by_cases hnan : isNaN a = true ∨ isNaN b = true
  · rw [fadd_of_isNaN hnan, fadd_of_isNaN hnan.symm]
  · rw [not_or, Bool.not_eq_true, Bool.not_eq_true] at hnan
    obtain ⟨hna, hnb⟩ := hnan
    rcases isInf_or_isFinite hna with ha | ha <;> rcases isInf_or_isFinite hnb with hb | hb
    · exact fadd_comm_of_isInf ha hb
    · exact fadd_comm_of_isInf_isFinite ha hb
    · exact (fadd_comm_of_isInf_isFinite hb ha).symm
    · exact fadd_comm_of_isFinite ha hb

/-- A value and its negation cancel to +0. -/
theorem fadd_fneg_self {a : Word} (ha : isFinite a = true) : fadd a (fneg a) = pzero := by
  cases hz : isZero a with
  | true =>
    have hsigns : ¬(signBit a = true ∧ signBit (fneg a) = true) := by simp
    rw [fadd_of_zeros hz ((isZero_fneg a).trans hz), if_neg hsigns]
  | false => exact fadd_of_cancel ha ((isFinite_fneg a).trans ha) hz (by rw [units_fneg]; omega)

/-- Values of plus sign add to a value of plus sign. -/
theorem fadd_of_plus_signs {a b : Word} (hna : isNaN a = false) (hnb : isNaN b = false) (ha : signBit a = false)
    (hb : signBit b = false) : isNaN (fadd a b) = false ∧ signBit (fadd a b) = false := by
  rcases isInf_or_isFinite hna with hia | hfa
  · rw [fadd_of_isInf_left hia hnb fun _ => ha.trans hb.symm]
    exact ⟨hna, ha⟩
  · rcases isInf_or_isFinite hnb with hib | hfb
    · rw [fadd_of_isInf_right hib hfa]
      exact ⟨hnb, hb⟩
    · have hua := units_nonneg ha
      have hub := units_nonneg hb
      by_cases hsum : units a + units b = 0
      · have hza : isZero a = true := units_eq_zero.mp (by omega)
        have hzb : isZero b = true := units_eq_zero.mp (by omega)
        simp [fadd_of_zeros hza hzb, ha]
      · rw [fadd_of_sum_ne_zero hfa hfb hsum, signBit_roundReal, decide_eq_false_iff_not]
        exact ⟨isNaN_roundReal .., by omega⟩

theorem isZero_fadd_of_zeros {a b : Word} (ha : isZero a = true) (hb : isZero b = true) : isZero (fadd a b) = true := by
  rw [fadd_of_zeros ha hb]
  split
  · exact isZero_nzero
  · exact isZero_pzero

/-! ## Subtraction (40_complex_arith.md R83) -/

theorem fsub_of_isNaN {a b : Word} (h : isNaN a = true ∨ isNaN b = true) : fsub a b = cnan := by
  simp [fsub, h]

theorem fsub_of_not_isNaN {a b : Word} (ha : isNaN a = false) (hb : isNaN b = false) : fsub a b = fadd a (fneg b) := by
  simp [fsub, ha, hb]

/-- A NaN has no sign to subtract by, so the guard of R83 only names a case that R82 has already. -/
theorem fsub_eq_fadd_fneg (a b : Word) : fsub a b = fadd a (fneg b) := by
  by_cases h : isNaN a = true ∨ isNaN b = true
  · rw [fsub_of_isNaN h, fadd_of_isNaN (by rwa [isNaN_fneg])]
  · rw [not_or, Bool.not_eq_true, Bool.not_eq_true] at h
    exact fsub_of_not_isNaN h.1 h.2

theorem fsub_fneg (a b : Word) : fsub a (fneg b) = fadd a b := by
  rw [fsub_eq_fadd_fneg, fneg_fneg]

/-- x - x is +0 for a finite x and the canonical NaN otherwise (R83). -/
theorem fsub_self (x : Word) : fsub x x = if isFinite x = true then pzero else cnan := by
  rcases isNaN_or_isInf_or_isFinite x with h | h | h
  · have hfin : isFinite x = false := by simp [isFinite_eq, h]
    rw [fsub_of_isNaN (.inl h), hfin, if_neg Bool.false_ne_true]
  · have hfin : isFinite x = false := by simp [isFinite_eq, h]
    have hsign : signBit x ≠ signBit (fneg x) := by simp
    rw [fsub_eq_fadd_fneg, fadd_of_opposite_infinities h ((isInf_fneg x).trans h) hsign, hfin, if_neg Bool.false_ne_true]
  · rw [fsub_eq_fadd_fneg, fadd_fneg_self h, if_pos h]

theorem isZero_fsub_of_zeros {a b : Word} (ha : isZero a = true) (hb : isZero b = true) : isZero (fsub a b) = true := by
  rw [fsub_eq_fadd_fneg]
  exact isZero_fadd_of_zeros ha ((isZero_fneg b).trans hb)

/-- The differences of two finite values, taken both ways, round to opposite patterns. -/
theorem fsub_swap_of_isFinite {a b : Word} (ha : isFinite a = true) (hb : isFinite b = true) (hne : a ≠ b) :
    fsub a b = fneg (fsub b a) := by
  have hfa : isFinite (fneg a) = true := (isFinite_fneg a).trans ha
  have hfb : isFinite (fneg b) = true := (isFinite_fneg b).trans hb
  rw [fsub_eq_fadd_fneg, fsub_eq_fadd_fneg]
  by_cases heq : units a = units b
  · have hza : isZero a = true := by
      rw [← Bool.not_eq_false]
      exact fun hz => hne (eq_of_units_eq heq hz)
    have hzb : isZero b = true := by rwa [← units_eq_zero, ← heq, units_eq_zero]
    have hs : signBit b = !signBit a := Bool.eq_not.mpr fun hs => hne (eq_of_isZero hza hzb hs.symm)
    simp only [fadd_of_zeros hza ((isZero_fneg b).trans hzb), fadd_of_zeros hzb ((isZero_fneg a).trans hza),
      signBit_fneg, hs]
    cases signBit a <;> simp
  · have hab : units a + units (fneg b) ≠ 0 := by rw [units_fneg]; omega
    have hba : units b + units (fneg a) ≠ 0 := by rw [units_fneg]; omega
    rw [fadd_of_sum_ne_zero ha hfb hab, fadd_of_sum_ne_zero hb hfa hba, fneg_roundReal, units_fneg, units_fneg]
    congr 1
    · rw [← decide_not, decide_eq_decide]
      omega
    · omega

/-- Two different patterns that are no NaNs have differences that differ in the sign alone (R83). -/
theorem fsub_swap {a b : Word} (hna : isNaN a = false) (hnb : isNaN b = false) (hne : a ≠ b) :
    fsub a b = fneg (fsub b a) := by
  have hnna : isNaN (fneg a) = false := (isNaN_fneg a).trans hna
  have hnnb : isNaN (fneg b) = false := (isNaN_fneg b).trans hnb
  rcases isInf_or_isFinite hna with hia | hfa
  · have hinf : isInf (fneg a) = true := (isInf_fneg a).trans hia
    rcases isInf_or_isFinite hnb with hib | hfb
    · have hs : signBit b = !signBit a := Bool.eq_not.mpr fun hs => hne (eq_of_isInf hia hib hs.symm)
      have hopp : fneg b = a := eq_of_isInf ((isInf_fneg b).trans hib) hia (by rw [signBit_fneg, hs, Bool.not_not])
      rw [fsub_eq_fadd_fneg, fsub_eq_fadd_fneg, fadd_of_isInf_left hia hnnb (by simp [hs]),
        fadd_of_isInf_left hib hnna (by simp [hs]), hopp]
    · obtain ⟨-, hib⟩ := isFinite_iff.mp hfb
      rw [fsub_eq_fadd_fneg, fsub_eq_fadd_fneg, fadd_of_isInf_left hia hnnb (by simp [hib]), fadd_of_isInf_right hinf hfb,
        fneg_fneg]
  · rcases isInf_or_isFinite hnb with hib | hfb
    · obtain ⟨-, hia⟩ := isFinite_iff.mp hfa
      rw [fsub_eq_fadd_fneg, fsub_eq_fadd_fneg, fadd_of_isInf_right ((isInf_fneg b).trans hib) hfa,
        fadd_of_isInf_left hib hnna (by simp [hia])]
    · exact fsub_swap_of_isFinite hfa hfb hne

/-! ## Multiplication, case by case (40_complex_arith.md R84) -/

theorem fmul_of_isNaN {a b : Word} (h : isNaN a = true ∨ isNaN b = true) : fmul a b = cnan := by
  simp [fmul, h]

theorem fmul_of_isInf_isZero {a b : Word} (ha : isInf a = true) (hb : isZero b = true) : fmul a b = cnan := by
  simp [fmul, ha, hb]

theorem fmul_of_isZero_isInf {a b : Word} (ha : isZero a = true) (hb : isInf b = true) : fmul a b = cnan := by
  simp [fmul, ha, hb]

theorem fmul_of_isInf {a b : Word} (h : isInf a = true ∨ isInf b = true) (hna : isNaN a = false) (hnb : isNaN b = false)
    (hza : isZero a = false) (hzb : isZero b = false) : fmul a b = signedInf (signBit a ^^ signBit b) := by
  simp [fmul, h, hna, hnb, hza, hzb]

theorem fmul_of_isZero {a b : Word} (h : isZero a = true ∨ isZero b = true) (ha : isFinite a = true)
    (hb : isFinite b = true) : fmul a b = signedZero (signBit a ^^ signBit b) := by
  obtain ⟨hna, hia⟩ := isFinite_iff.mp ha
  obtain ⟨hnb, hib⟩ := isFinite_iff.mp hb
  simp [fmul, h, hna, hia, hnb, hib]

theorem fmul_of_isFinite {a b : Word} (ha : isFinite a = true) (hb : isFinite b = true) (hza : isZero a = false)
    (hzb : isZero b = false) :
    fmul a b = roundReal (signBit a ^^ signBit b) (magUnits a * magUnits b) (2 ^ 149) := by
  obtain ⟨hna, hia⟩ := isFinite_iff.mp ha
  obtain ⟨hnb, hib⟩ := isFinite_iff.mp hb
  simp [fmul, hza, hzb, hna, hia, hnb, hib]

/-- The sign of a product of values that are not zero. -/
theorem signBit_xor_eq {a b : Word} (hza : isZero a = false) (hzb : isZero b = false) :
    (signBit a ^^ signBit b) = decide (units a * units b < 0) := by
  have hua : units a ≠ 0 := fun h => by simp [units_eq_zero.mp h] at hza
  have hub : units b ≠ 0 := fun h => by simp [units_eq_zero.mp h] at hzb
  rw [signBit_eq_of_not_isZero hza, signBit_eq_of_not_isZero hzb, Bool.eq_iff_iff]
  simp only [Bool.xor_iff_ne, ne_eq, decide_eq_decide, decide_eq_true_eq, mul_neg_iff]
  omega

/-- The product of finite values that are not zero is rounded once (R81(a)). -/
theorem roundsTo_fmul {a b : Word} (ha : isFinite a = true) (hb : isFinite b = true) (hza : isZero a = false)
    (hzb : isZero b = false) : RoundsTo (units a * units b) (2 ^ 149) (fmul a b) := by
  rw [fmul_of_isFinite ha hb hza hzb, signBit_xor_eq hza hzb, ← natAbs_units, ← natAbs_units, ← Int.natAbs_mul]
  exact roundsTo_roundReal _ (by decide)

/-- Multiplication is commutative bit for bit (R84). -/
theorem fmul_comm (a b : Word) : fmul a b = fmul b a := by
  have hundef : (isInf a && isZero b || isZero a && isInf b) = (isInf b && isZero a || isZero b && isInf a) := by
    rw [Bool.or_comm, Bool.and_comm (isZero a), Bool.and_comm (isInf a)]
  simp only [fmul]
  rw [Bool.xor_comm, Bool.or_comm (isNaN a), hundef, Bool.or_comm (isInf a), Bool.or_comm (isZero a), Nat.mul_comm]

/-- A product that is no NaN changes its sign with its first factor; a NaN stays the one NaN. -/
theorem fmul_fneg_left (a b : Word) : fmul (fneg a) b = if isNaN (fmul a b) then cnan else fneg (fmul a b) := by
  simp only [fmul, isNaN_fneg, isInf_fneg, isZero_fneg, signBit_fneg, magUnits_fneg]
  split
  · rw [isNaN_cnan, if_pos rfl]
  · split
    · rw [isNaN_cnan, if_pos rfl]
    · split
      · simp
      · split
        · simp
        · simp [isNaN_roundReal]

/-- The square of a pattern that is no NaN is a value of plus sign. -/
theorem fmul_self {a : Word} (h : isNaN a = false) : isNaN (fmul a a) = false ∧ signBit (fmul a a) = false := by
  rcases isInf_or_isFinite h with hinf | hfin
  · have hz := isZero_of_isInf hinf
    simp [fmul_of_isInf (.inl hinf) h h hz hz]
  · cases hz : isZero a with
    | true => simp [fmul_of_isZero (.inl hz) hfin hfin]
    | false => simp [fmul_of_isFinite hfin hfin hz hz, isNaN_roundReal]

theorem isZero_fmul_of_isZero {a b : Word} (h : isZero a = true ∨ isZero b = true) (ha : isFinite a = true)
    (hb : isFinite b = true) : isZero (fmul a b) = true := by
  rw [fmul_of_isZero h ha hb, isZero_signedZero]

/-! ## Division, case by case (40_complex_arith.md R85) -/

theorem fdiv_of_isNaN {a b : Word} (h : isNaN a = true ∨ isNaN b = true) : fdiv a b = cnan := by
  simp [fdiv, h]

theorem fdiv_of_infinities {a b : Word} (ha : isInf a = true) (hb : isInf b = true) : fdiv a b = cnan := by
  simp [fdiv, ha, hb]

theorem fdiv_of_zeros {a b : Word} (ha : isZero a = true) (hb : isZero b = true) : fdiv a b = cnan := by
  simp [fdiv, ha, hb]

theorem fdiv_of_isInf_left {a b : Word} (ha : isInf a = true) (hb : isFinite b = true) :
    fdiv a b = signedInf (signBit a ^^ signBit b) := by
  obtain ⟨hnb, hib⟩ := isFinite_iff.mp hb
  simp [fdiv, ha, isNaN_of_isInf ha, isZero_of_isInf ha, hnb, hib]

theorem fdiv_of_isInf_right {a b : Word} (ha : isFinite a = true) (hb : isInf b = true) :
    fdiv a b = signedZero (signBit a ^^ signBit b) := by
  obtain ⟨hna, hia⟩ := isFinite_iff.mp ha
  simp [fdiv, hb, isNaN_of_isInf hb, isZero_of_isInf hb, hna, hia]

theorem fdiv_of_isZero_right {a b : Word} (ha : isFinite a = true) (hza : isZero a = false) (hb : isZero b = true) :
    fdiv a b = signedInf (signBit a ^^ signBit b) := by
  obtain ⟨hna, hia⟩ := isFinite_iff.mp ha
  obtain ⟨hnb, hib⟩ := isFinite_iff.mp (isFinite_of_isZero hb)
  simp [fdiv, hna, hia, hnb, hib, hza, hb]

theorem fdiv_of_isZero_left {a b : Word} (ha : isZero a = true) (hb : isFinite b = true) (hzb : isZero b = false) :
    fdiv a b = signedZero (signBit a ^^ signBit b) := by
  obtain ⟨hna, hia⟩ := isFinite_iff.mp (isFinite_of_isZero ha)
  obtain ⟨hnb, hib⟩ := isFinite_iff.mp hb
  simp [fdiv, hna, hia, hnb, hib, ha, hzb]

theorem fdiv_of_isFinite {a b : Word} (ha : isFinite a = true) (hb : isFinite b = true) (hza : isZero a = false)
    (hzb : isZero b = false) :
    fdiv a b = roundReal (signBit a ^^ signBit b) (magUnits a * 2 ^ 149) (magUnits b) := by
  obtain ⟨hna, hia⟩ := isFinite_iff.mp ha
  obtain ⟨hnb, hib⟩ := isFinite_iff.mp hb
  simp [fdiv, hna, hia, hnb, hib, hza, hzb]

/-- The quotient of finite values that are not zero is rounded once (R81(a)). -/
theorem roundsTo_fdiv {a b : Word} (ha : isFinite a = true) (hb : isFinite b = true) (hza : isZero a = false)
    (hzb : isZero b = false) :
    RoundsTo ((if signBit b then -units a else units a) * 2 ^ 149) (units b).natAbs (fdiv a b) := by
  have hua : units a ≠ 0 := fun h => by simp [units_eq_zero.mp h] at hza
  have hden : 0 < (units b).natAbs := Int.natAbs_pos.mpr fun h => by simp [units_eq_zero.mp h] at hzb
  have hsign : (signBit a ^^ signBit b) = decide ((if signBit b then -units a else units a) * 2 ^ 149 < 0) := by
    rw [signBit_eq_of_not_isZero hza, Bool.eq_iff_iff]
    cases signBit b
    · simp
      omega
    · simp
      omega
  have habs : magUnits a * 2 ^ 149 = ((if signBit b then -units a else units a) * 2 ^ 149).natAbs := by
    rw [← natAbs_units]
    split <;> omega
  rw [fdiv_of_isFinite ha hb hza hzb, hsign, habs, ← natAbs_units b]
  exact roundsTo_roundReal _ hden

/-! ## The one NaN (40_complex_arith.md R81(c)): what the branches of a primitive return is that NaN, a zero, an infinity, a
rounded value, or in a sum an operand when neither is a NaN -/

theorem fadd_eq_cnan_of_isNaN {a b : Word} (h : isNaN (fadd a b) = true) : fadd a b = cnan := by
  by_cases hin : isNaN a = true ∨ isNaN b = true
  · exact fadd_of_isNaN hin
  · revert h
    simp only [not_or, Bool.not_eq_true] at hin
    unfold fadd
    repeat' split
    all_goals simp [hin, isNaN_roundReal]

theorem fsub_eq_cnan_of_isNaN {a b : Word} (h : isNaN (fsub a b) = true) : fsub a b = cnan := by
  rw [fsub_eq_fadd_fneg] at h ⊢
  exact fadd_eq_cnan_of_isNaN h

theorem fmul_eq_cnan_of_isNaN {a b : Word} (h : isNaN (fmul a b) = true) : fmul a b = cnan := by
  revert h
  simp only [fmul]
  repeat' split
  all_goals simp [isNaN_roundReal]

theorem fdiv_eq_cnan_of_isNaN {a b : Word} (h : isNaN (fdiv a b) = true) : fdiv a b = cnan := by
  revert h
  simp only [fdiv]
  repeat' split
  all_goals simp [isNaN_roundReal]

end Sys2Proof.Machine

namespace Sys2Proof.Proofs

open Sys2Proof.Machine

/-- Settles O5: each row is an evaluation of the primitive on two words. -/
theorem primitiveTestPoints : Obligations.PrimitiveTestPoints := by
  unfold Obligations.PrimitiveTestPoints
  decide +kernel

/-- Settles O6, a clause per case of R82. -/
theorem additionRule : Obligations.AdditionRule := by
  intro a b
  exact ⟨fadd_of_isNaN, fadd_of_opposite_infinities, fadd_of_isInf_left, fadd_of_isInf_right, fadd_of_zeros,
    fadd_of_cancel, roundsTo_fadd, fadd_zero, fadd_comm a b⟩

/-- Settles O7, a clause per case of R84. -/
theorem multiplicationRule : Obligations.MultiplicationRule := by
  intro a b
  refine ⟨fmul_of_isNaN, fmul_of_isInf_isZero, fmul_of_isZero_isInf, fun h hna hnb hza hzb => ?_, fun h ha hb => ?_,
    fun ha hb hza hzb => ⟨roundsTo_fmul ha hb hza hzb, ?_⟩, fmul_comm a b⟩
  · rw [fmul_of_isInf h hna hnb hza hzb]
    exact ⟨isInf_signedInf _, signBit_signedInf _⟩
  · rw [fmul_of_isZero h ha hb]
    exact ⟨isZero_signedZero _, signBit_signedZero _⟩
  · rw [fmul_of_isFinite ha hb hza hzb, signBit_roundReal]

/-- Settles O8, a clause per case of R85. -/
theorem divisionRule : Obligations.DivisionRule := by
  intro a b
  refine ⟨fdiv_of_isNaN, fdiv_of_infinities, fdiv_of_zeros, fun ha hb => ?_, fun ha hb => ?_, fun ha hza hb => ?_,
    fun ha hb hzb => ?_, fun ha hb hza hzb => ⟨?_, roundsTo_fdiv ha hb hza hzb⟩⟩
  · rw [fdiv_of_isInf_left ha hb]
    exact ⟨isInf_signedInf _, signBit_signedInf _⟩
  · rw [fdiv_of_isInf_right ha hb]
    exact ⟨isZero_signedZero _, signBit_signedZero _⟩
  · rw [fdiv_of_isZero_right ha hza hb]
    exact ⟨isInf_signedInf _, signBit_signedInf _⟩
  · rw [fdiv_of_isZero_left ha hb hzb]
    exact ⟨isZero_signedZero _, signBit_signedZero _⟩
  · rw [fdiv_of_isFinite ha hb hza hzb, signBit_roundReal]

/-- Settles O9: the two differences of different patterns by `fsub_swap`, those of one pattern by `fsub_self`. -/
theorem subtractionRule : Obligations.SubtractionRule := by
  refine ⟨fun a b => fsub_of_isNaN, fun a b => fsub_of_not_isNaN, fun x hx => ?_, by decide, by decide, by decide,
    by decide, fun a b => fsub_swap, fun x hx => ?_⟩
  · exact (fsub_self x).trans (if_pos hx)
  · exact (fsub_self x).trans (if_neg (by simp [isFinite_eq, hx]))

/-- Settles O10: the mask of R86 has bit 31 alone. -/
theorem negationFlipsSign : Obligations.NegationFlipsSign :=
  fun a _ hi => getLsbD_fneg a hi

/-- Settles O11, by the cases of each primitive: a rounded result, an infinity and a zero are no NaNs. -/
theorem primitivesReturnCanonicalNaN : Obligations.PrimitivesReturnCanonicalNaN :=
  fun _ _ => ⟨fadd_eq_cnan_of_isNaN, fsub_eq_cnan_of_isNaN, fmul_eq_cnan_of_isNaN, fdiv_eq_cnan_of_isNaN,
    fun h => ⟨fadd_of_isNaN h, fsub_of_isNaN h, fmul_of_isNaN h, fdiv_of_isNaN h⟩⟩

end Sys2Proof.Proofs
end

section
/-! The complex helpers (40_complex_arith.md R90, R92, R94, R98(a)): what commutativity, negation and the sign of a square in the
primitives give for products, conjugates and squared magnitudes, and which helpers return no NaN but the canonical one
(R99(c)). -/

namespace Sys2Proof.Machine

/-! ## Negated products in sums and differences (40_complex_arith.md R92) -/

/-- To subtract a product with a negated factor is to add the product, a NaN product included. -/
theorem fsub_fmul_fneg (p a b : Word) : fsub p (fmul (fneg a) b) = fadd p (fmul a b) := by
  rw [fmul_fneg_left]
  split
  · next h => rw [fsub_of_isNaN (.inr isNaN_cnan), fadd_of_isNaN (.inr h)]
  · rw [fsub_fneg]

/-- To add a product with a negated factor is to subtract the product, a NaN product included. -/
theorem fadd_fmul_fneg (p a b : Word) : fadd p (fmul (fneg a) b) = fsub p (fmul a b) := by
  rw [fmul_fneg_left]
  split
  · next h => rw [fadd_of_isNaN (.inr isNaN_cnan), fsub_of_isNaN (.inr h)]
  · rw [fsub_eq_fadd_fneg]

theorem isNaN_fmul_of_isNaN {a b : Word} (h : isNaN a = true ∨ isNaN b = true) : isNaN (fmul a b) = true := by
  rw [fmul_of_isNaN h, isNaN_cnan]

/-- A NaN in any factor of two products is in one of the products. -/
theorem isNaN_products {a b c d : Word}
    (h : (isNaN a = true ∨ isNaN b = true) ∨ isNaN c = true ∨ isNaN d = true) :
    isNaN (fmul a b) = true ∨ isNaN (fmul c d) = true :=
  h.imp isNaN_fmul_of_isNaN isNaN_fmul_of_isNaN

/-! ## The helpers -/

/-- Complex multiplication is commutative bit for bit (R90). -/
theorem cmul_comm (a b : Cplx) : cmul a b = cmul b a := by
  rw [cmul, cmul, fmul_comm a.re b.re, fmul_comm a.im b.im, fadd_comm, fmul_comm a.im b.re, fmul_comm a.re b.im]

/-- The product with a conjugate in real operations (R92). -/
theorem cmul_cconj (a b : Cplx) :
    cmul (cconj a) b =
      ⟨fadd (fmul a.re b.re) (fmul a.im b.im), fsub (fmul a.re b.im) (fmul a.im b.re)⟩ := by
  simp only [cmul, cconj, fsub_fmul_fneg, fadd_fmul_fneg]

/-- The two sums of a product with a conjugate both read all four parts, so a NaN in any reaches both. -/
theorem conjugateProduct_of_isNaN {a b : Cplx}
    (h : isNaN a.re = true ∨ isNaN a.im = true ∨ isNaN b.re = true ∨ isNaN b.im = true) :
    (⟨fadd (fmul a.re b.re) (fmul a.im b.im), fsub (fmul a.re b.im) (fmul a.im b.re)⟩ : Cplx) = ⟨cnan, cnan⟩ := by
  have hre : isNaN (fmul a.re b.re) = true ∨ isNaN (fmul a.im b.im) = true := isNaN_products (by tauto)
  have him : isNaN (fmul a.re b.im) = true ∨ isNaN (fmul a.im b.re) = true := isNaN_products (by tauto)
  rw [fadd_of_isNaN hre, fsub_of_isNaN him]

/-- A squared magnitude is a sum of two squares of plus sign (R94). -/
theorem norm2_of_not_isNaN {a : Cplx} (hre : isNaN a.re = false) (him : isNaN a.im = false) :
    isNaN (norm2 a) = false ∧ signBit (norm2 a) = false := by
  obtain ⟨hre, hre'⟩ := fmul_self hre
  obtain ⟨him, him'⟩ := fmul_self him
  exact fadd_of_plus_signs hre him hre' him'

/-- Over a complex zero every product is a zero, and each part is a zero over a zero (R98(a)). -/
theorem cdiv_of_zero_divisor {a b : Cplx} (hre : isFinite a.re = true) (him : isFinite a.im = true)
    (hzre : isZero b.re = true) (hzim : isZero b.im = true) : cdiv a b = ⟨cnan, cnan⟩ := by
  have hprod {x y : Word} (hx : isFinite x = true) (hy : isZero y = true) : isZero (fmul x y) = true :=
    isZero_fmul_of_isZero (.inr hy) hx (isFinite_of_isZero hy)
  have hden : isZero (fadd (fmul b.re b.re) (fmul b.im b.im)) = true :=
    isZero_fadd_of_zeros (hprod (isFinite_of_isZero hzre) hzre) (hprod (isFinite_of_isZero hzim) hzim)
  have hnre : isZero (fadd (fmul a.re b.re) (fmul a.im b.im)) = true :=
    isZero_fadd_of_zeros (hprod hre hzre) (hprod him hzim)
  have hnim : isZero (fsub (fmul a.im b.re) (fmul a.re b.im)) = true :=
    isZero_fsub_of_zeros (hprod him hzre) (hprod hre hzim)
  rw [cdiv, fdiv_of_zeros hnre hden, fdiv_of_zeros hnim hden]

/-! ## The one NaN in complex results (40_complex_arith.md R99(c)) -/

/-- A part of the value that is a NaN is the canonical one. -/
def CanonicalNaNs (x : Cplx) : Prop := (isNaN x.re = true → x.re = cnan) ∧ (isNaN x.im = true → x.im = cnan)

theorem canonicalNaNs_cadd (a b : Cplx) : CanonicalNaNs (cadd a b) := ⟨fadd_eq_cnan_of_isNaN, fadd_eq_cnan_of_isNaN⟩
theorem canonicalNaNs_csub (a b : Cplx) : CanonicalNaNs (csub a b) := ⟨fsub_eq_cnan_of_isNaN, fsub_eq_cnan_of_isNaN⟩
theorem canonicalNaNs_cmul (a b : Cplx) : CanonicalNaNs (cmul a b) := ⟨fsub_eq_cnan_of_isNaN, fadd_eq_cnan_of_isNaN⟩
theorem canonicalNaNs_cdiv (a b : Cplx) : CanonicalNaNs (cdiv a b) := ⟨fdiv_eq_cnan_of_isNaN, fdiv_eq_cnan_of_isNaN⟩
theorem canonicalNaNs_cscale (a : Cplx) (g : Word) : CanonicalNaNs (cscale a g) :=
  ⟨fmul_eq_cnan_of_isNaN, fmul_eq_cnan_of_isNaN⟩

/-- Both results of the solver core end in the product with g. -/
theorem canonicalNaNs_zfcore (h00 h01 h10 h11 y0 y1 : Cplx) (g : Word) :
    CanonicalNaNs (zfcore h00 h01 h10 h11 y0 y1 g).1 ∧ CanonicalNaNs (zfcore h00 h01 h10 h11 y0 y1 g).2 :=
  ⟨canonicalNaNs_cscale _ g, canonicalNaNs_cscale _ g⟩

end Sys2Proof.Machine

namespace Sys2Proof.Proofs

open Sys2Proof.Machine

/-- Settles O12: each formula is the helper's definition. -/
theorem helperFormulas : Obligations.HelperFormulas :=
  ⟨fun _ _ => rfl, fun _ _ => rfl, fun _ _ => rfl, fun _ _ => rfl, fun _ _ _ _ _ _ _ => rfl, fun _ _ _ _ _ _ _ => rfl⟩

/-- Settles O13: the four products commute, and so does the one sum; Inf · 0 in the imaginary part is a NaN. -/
theorem complexMultiplicationRule : Obligations.ComplexMultiplicationRule :=
  ⟨fun _ _ => rfl, cmul_comm, by decide⟩

/-- Settles O14: the negated factor turns the difference into a sum and the sum into a difference. -/
theorem conjugateRule : Obligations.ConjugateRule := by
  refine ⟨fun _ => rfl, fun a b => ⟨cmul_cconj a b, fun h => ⟨?_, conjugateProduct_of_isNaN h⟩⟩⟩
  rw [cmul_cconj]
  exact conjugateProduct_of_isNaN h

/-- Settles O15: a sum of squares is a sum of values of plus sign. -/
theorem squaredMagnitudeRule : Obligations.SquaredMagnitudeRule :=
  ⟨fun _ => rfl, fun _ => norm2_of_not_isNaN⟩

/-- Settles O16: both parts are a zero over a zero. -/
theorem divisionByComplexZero : Obligations.DivisionByComplexZero :=
  fun _ _ => cdiv_of_zero_divisor

end Sys2Proof.Proofs
end

section
/-! The arithmetic commands at every width (40_complex_arith.md R95 to R99): the state that a two-operand command leaves, and
for every computing command the one NaN it writes, its width 1 form, and that it moves with its instances. -/

namespace Sys2Proof.Machine

/-! ## The state after a two-operand command (40_complex_arith.md R95) -/

/-- The state in which a two-operand command with function `f` ends. -/
def binaryResult (f : Cplx → Cplx → Cplx) (w : Width) (rd ra rb : Reg) (s : State) : State :=
  (s.applyWrites (binaryWrites f w rd ra rb s)).answer (.completion 0)

theorem exec_cadd_eq (w : Width) (rd ra rb : Reg) (s : State) :
    exec (.cadd w rd ra rb) s = .next (binaryResult cadd w rd ra rb s) := exec_cadd w rd ra rb s

theorem exec_csub_eq (w : Width) (rd ra rb : Reg) (s : State) :
    exec (.csub w rd ra rb) s = .next (binaryResult csub w rd ra rb s) := exec_csub w rd ra rb s

theorem exec_cmul_eq (w : Width) (rd ra rb : Reg) (s : State) :
    exec (.cmul w rd ra rb) s = .next (binaryResult cmul w rd ra rb s) := exec_cmul w rd ra rb s

theorem exec_cdiv_eq (w : Width) (rd ra rb : Reg) (s : State) :
    exec (.cdiv w rd ra rb) s = .next (binaryResult cdiv w rd ra rb s) := exec_cdiv w rd ra rb s

section
variable (f : Cplx → Cplx → Cplx) {w : Width} {rd ra rb : Reg} {s : State}

theorem c_binaryResult (r : Reg) (k : InstIx) :
    (binaryResult f w rd ra rb s).c r k = if r = rd ∧ k.val < w.count then f (s.c ra k) (s.c rb k) else s.c r k :=
  c_binaryWrites f w rd ra rb s r k

theorem c_binaryResult_of_active {k : InstIx} (hk : k.val < w.count) :
    (binaryResult f w rd ra rb s).c rd k = f (s.c ra k) (s.c rb k) :=
  (c_binaryResult f rd k).trans (if_pos ⟨rfl, hk⟩)

/-- Only the active lanes of the destination change, and the code is 0. -/
theorem completedOn_binaryResult :
    CompletedOn (fun r l => r == rd && activeLane w l) s (binaryResult f w rd ra rb s) where
  toOnlyLanes := onlyLanes_applyWrites (fun _ _ => writesTo_row_laneInst.mp) s _
  replies := by simp [binaryResult]

/-- A two-operand command moves with its instances (R99(a)). -/
theorem c_binaryResult_permuted {s' : State} {σ : InstIx → InstIx} (hσ : ∀ k, (σ k).val < w.count ↔ k.val < w.count)
    (hc : ∀ r k, s'.c r k = s.c r (σ k)) (r : Reg) (k : InstIx) :
    (binaryResult f w rd ra rb s').c r k = (binaryResult f w rd ra rb s).c r (σ k) := by
  simp only [c_binaryResult, hσ, hc]

end

/-- The four two-operand commands each apply one function of two complex values at every width. -/
theorem exists_binaryResult {mk : Width → Reg → Reg → Reg → Instr}
    (h : mk ∈ [Instr.cadd, Instr.csub, Instr.cmul, Instr.cdiv]) :
    ∃ f, ∀ w rd ra rb s, exec (mk w rd ra rb) s = .next (binaryResult f w rd ra rb s) := by
  simp only [List.mem_cons, List.not_mem_nil, or_false] at h
  rcases h with rfl | rfl | rfl | rfl
  · exact ⟨cadd, exec_cadd_eq⟩
  · exact ⟨csub, exec_csub_eq⟩
  · exact ⟨cmul, exec_cmul_eq⟩
  · exact ⟨cdiv, exec_cdiv_eq⟩

/-! ## The state after a solver command (42_zf_solver.md R111, 43_mmse_solver.md R121) -/

/-- The state in which a solver command with the pairs `x` ends. -/
def solverResult (x : InstIx → Cplx × Cplx) (w : Width) (rd : Reg) (s : State) : State :=
  (s.applyWrites (solverWrites x w rd)).answer (.completion 0)

theorem wf_zf (w : Width) (rd ra rb : Reg) (sg : SReg) :
    (Instr.zf w rd ra rb sg).wf = decide (SolverFits rd ra rb) := by cases w <;> rfl

theorem wf_mmse (w : Width) (rd ra rb : Reg) (sg sn : SReg) :
    (Instr.mmse w rd ra rb sg sn).wf = decide (SolverFits rd ra rb) := by cases w <;> rfl

theorem exec_zf_of_fits {rd ra rb : Reg} (hfit : SolverFits rd ra rb) (w : Width) (sg : SReg) (s : State) :
    exec (.zf w rd ra rb sg) s = .next (solverResult (zfResult ra rb sg s) w rd s) :=
  (exec_zf w rd ra rb sg s).trans (if_pos ((solverOk_eq rd ra rb).trans (decide_eq_true hfit)))

theorem exec_mmse_of_fits {rd ra rb : Reg} (hfit : SolverFits rd ra rb) (w : Width) (sg sn : SReg) (s : State) :
    exec (.mmse w rd ra rb sg sn) s = .next (solverResult (mmseResult ra rb sg sn s) w rd s) :=
  (exec_mmse w rd ra rb sg sn s).trans (if_pos ((solverOk_eq rd ra rb).trans (decide_eq_true hfit)))

/-- A solver command moves with its instances where its problems do (R116). -/
theorem c_solverResult_permuted {w : Width} {rd : Reg} {s s' : State} {x x' : InstIx → Cplx × Cplx}
    {σ : InstIx → InstIx} (hfit : GroupFits rd 2) (hσ : ∀ k, (σ k).val < w.count ↔ k.val < w.count)
    (hc : ∀ r k, s'.c r k = s.c r (σ k)) (hx : ∀ k, x' k = x (σ k)) (r : Reg) (k : InstIx) :
    (solverResult x' w rd s').c r k = (solverResult x w rd s).c r (σ k) := by
  simp only [solverResult, answer_c, c_solverWrites _ _ _ _ _ _ hfit, hσ, hc, hx]

theorem zfResult_permuted {ra rb : Reg} {sg : SReg} {s s' : State} {σ : InstIx → InstIx}
    (hc : ∀ r k, s'.c r k = s.c r (σ k)) (hs : s'.s = s.s) (k : InstIx) :
    zfResult ra rb sg s' k = zfResult ra rb sg s (σ k) := by
  simp only [zfResult, hc, State.scalar, hs]

theorem mmseResult_permuted {ra rb : Reg} {sg sn : SReg} {s s' : State} {σ : InstIx → InstIx}
    (hc : ∀ r k, s'.c r k = s.c r (σ k)) (hs : s'.s = s.s) (k : InstIx) :
    mmseResult ra rb sg sn s' k = mmseResult ra rb sg sn s (σ k) := by
  simp only [mmseResult, hc, State.scalar, hs]

/-! ## Every value a computing command writes (40_complex_arith.md R99(c)) -/

/-- What the writes leave where they write is the value of one of them. -/
theorem c_applyWrites_property {P : Cplx → Prop} {ws : List CWrite} {r : Reg} {k : InstIx} (hto : WritesTo ws r k)
    (h : ∀ v ∈ ws, P v.val) (s : State) : P ((s.applyWrites ws).c r k) := by
  induction ws generalizing s with
  | nil => obtain ⟨v, hv, -⟩ := hto; cases hv
  | cons w ws ih =>
    rw [applyWrites_cons]
    by_cases hlater : WritesTo ws r k
    · exact ih hlater (fun v hv => h v (List.mem_cons_of_mem _ hv)) _
    · obtain ⟨v, hv, hvk⟩ := hto
      rcases List.mem_cons.mp hv with rfl | hmem
      · rw [c_applyWrites_of_not_named _ _ _ _ fun u hu huk => hlater ⟨u, hu, huk⟩, c_setC, if_pos hvk]
        exact h v List.mem_cons_self
      · exact absurd ⟨v, hmem, hvk⟩ hlater

theorem canonicalNaNs_binaryWrites {f : Cplx → Cplx → Cplx} (hf : ∀ a b, CanonicalNaNs (f a b)) {w : Width}
    {rd ra rb : Reg} {s : State} : ∀ v ∈ binaryWrites f w rd ra rb s, CanonicalNaNs v.val := by
  intro v hv
  obtain ⟨k, -, rfl⟩ := List.mem_map.mp hv
  exact hf _ _

theorem canonicalNaNs_solverWrites {x : InstIx → Cplx × Cplx} (hx : ∀ k, CanonicalNaNs (x k).1 ∧ CanonicalNaNs (x k).2)
    {w : Width} {rd : Reg} : ∀ v ∈ solverWrites x w rd, CanonicalNaNs v.val := by
  intro v hv
  rcases List.mem_append.mp hv with hv | hv <;> obtain ⟨k, -, rfl⟩ := List.mem_map.mp hv
  · exact (hx k).1
  · exact (hx k).2

/-- Every value that a computing command writes comes out of a primitive. -/
theorem canonicalNaNs_commandWrites {i : Instr} (h : computes i = true) (s : State) :
    ∀ v ∈ commandWrites i s, CanonicalNaNs v.val := by
  cases i with
  | caddW1 | caddW2 | caddW4 => exact canonicalNaNs_binaryWrites canonicalNaNs_cadd
  | csubW1 | csubW2 | csubW4 => exact canonicalNaNs_binaryWrites canonicalNaNs_csub
  | cmulW1 | cmulW2 | cmulW4 => exact canonicalNaNs_binaryWrites canonicalNaNs_cmul
  | cdivW1 | cdivW2 | cdivW4 => exact canonicalNaNs_binaryWrites canonicalNaNs_cdiv
  | packW1 | packW2 | packW4 | unpackW1 | unpackW2 | unpackW4 => cases h
  | zfW1 | zfW2 | zfW4 => exact canonicalNaNs_solverWrites fun k => canonicalNaNs_zfcore ..
  | mmseW1 | mmseW2 | mmseW4 => exact canonicalNaNs_solverWrites fun k => canonicalNaNs_zfcore ..

/-- A lane is one of the two parts of a complex value. -/
theorem lane_eq_cnan_of_canonicalNaNs {s : State} {r : Reg} {l : LaneIx} (h : CanonicalNaNs (s.c r (laneInst l)))
    (hnan : isNaN (s.lane r l) = true) : s.lane r l = cnan := by
  obtain ⟨k, rfl | rfl⟩ := lane_of_instance l
  · rw [laneInst_reLane] at h
    exact h.1 hnan
  · rw [laneInst_imLane] at h
    exact h.2 hnan

end Sys2Proof.Machine

namespace Sys2Proof.Proofs

open Sys2Proof.Machine

/-- Settles O21: the frame and the sums of a two-operand command; the corner cases are those of addition. -/
theorem caddResult : Obligations.CaddResult := by
  refine ⟨fun w rd ra rb s => ⟨_, exec_cadd_eq w rd ra rb s, completedOn_binaryResult cadd,
    fun _ => c_binaryResult_of_active cadd⟩, fun _ => fadd_fneg_self, fun x y hx hy hover => ?_, fun _ _ => fadd_of_isNaN,
    decodeOfEncode (.caddW1 2 0 1) rfl, by decide +kernel, by decide +kernel⟩
  have hsum : units x + units y ≠ 0 := fun h => by
    rw [h] at hover
    exact absurd hover (by decide)
  obtain ⟨hsign, hinf⟩ := roundsTo_fadd hx hy hsum
  rw [if_pos (by rwa [Nat.mul_one])] at hinf
  exact ⟨hinf, hsign⟩

/-- Settles O22: the frame and the differences of a two-operand command; the corner case is `fsub_self`. -/
theorem csubResult : Obligations.CsubResult :=
  ⟨fun w rd ra rb s => ⟨_, exec_csub_eq w rd ra rb s, completedOn_binaryResult csub,
    fun _ => c_binaryResult_of_active csub⟩, fsub_self, decodeOfEncode (.csubW1 2 0 1) rfl, by decide +kernel,
    by decide +kernel⟩

/-- Settles O23: the frame and the products of a two-operand command. -/
theorem cmulResult : Obligations.CmulResult :=
  fun w rd ra rb s => ⟨_, exec_cmul_eq w rd ra rb s, completedOn_binaryResult cmul,
    fun _ => c_binaryResult_of_active cmul⟩

/-- Settles O24: the frame and the quotients of a two-operand command, no divisor excepted. -/
theorem cdivResult : Obligations.CdivResult :=
  fun w rd ra rb s => ⟨_, exec_cdiv_eq w rd ra rb s, completedOn_binaryResult cdiv,
    fun _ => c_binaryResult_of_active cdiv⟩

/-- Settles O32: a destination lane is a part of a value that the command wrote. -/
theorem commandsWriteCanonicalNaN : Obligations.CommandsWriteCanonicalNaN := by
  intro i s t hcomp hwf hexec r l hdest hnan
  rw [exec_of_wf hwf] at hexec
  cases hexec
  have hto := (writesTo_commandWrites_iff hwf s r l).mpr hdest
  exact lane_eq_cnan_of_canonicalNaNs (c_applyWrites_property hto (canonicalNaNs_commandWrites hcomp s) s) hnan

/-- Settles O33: at either width the result is the command's function of the two operands. -/
theorem arithmeticWidthEquivalence : Obligations.ArithmeticWidthEquivalence := by
  intro mk hmk w rd ra rb rd' ra' rb' k s s' hk ha hb
  obtain ⟨f, hexec⟩ := exists_binaryResult hmk
  refine ⟨_, _, hexec w rd ra rb s, hexec .w1 rd' ra' rb' s', ?_⟩
  rw [c_binaryResult_of_active f hk, c_binaryResult_of_active f Nat.one_pos, ha, hb]

/-- Settles O35, by the two operand shapes: what is written in place k is a function of what stood in places k, and the rest stays. -/
theorem laneOrderPreserved : Obligations.LaneOrderPreserved := by
  intro w rd ra rb sg sn i hi hwf σ s s' hσ hc hs
  simp only [List.mem_cons, List.not_mem_nil, or_false] at hi
  rcases hi with rfl | rfl | rfl | rfl | rfl | rfl
  · exact ⟨_, _, exec_cadd_eq w rd ra rb s, exec_cadd_eq w rd ra rb s', c_binaryResult_permuted cadd hσ hc⟩
  · exact ⟨_, _, exec_csub_eq w rd ra rb s, exec_csub_eq w rd ra rb s', c_binaryResult_permuted csub hσ hc⟩
  · exact ⟨_, _, exec_cmul_eq w rd ra rb s, exec_cmul_eq w rd ra rb s', c_binaryResult_permuted cmul hσ hc⟩
  · exact ⟨_, _, exec_cdiv_eq w rd ra rb s, exec_cdiv_eq w rd ra rb s', c_binaryResult_permuted cdiv hσ hc⟩
  · rw [wf_zf, decide_eq_true_iff] at hwf
    exact ⟨_, _, exec_zf_of_fits hwf w sg s, exec_zf_of_fits hwf w sg s',
      c_solverResult_permuted hwf.1 hσ hc (zfResult_permuted hc hs)⟩
  · rw [wf_mmse, decide_eq_true_iff] at hwf
    exact ⟨_, _, exec_mmse_of_fits hwf w sg sn s, exec_mmse_of_fits hwf w sg sn s',
      c_solverResult_permuted hwf.1 hσ hc (mmseResult_permuted hc hs)⟩

end Sys2Proof.Proofs
end

section
/-! PACK and UNPACK (41_pack_unpack.md R100 to R103): the state that each leaves, the round trips, and that a command of width
W between packing and unpacking computes what width 1 commands compute. -/

namespace Sys2Proof.Machine

/-! ## The state after PACK (41_pack_unpack.md R100) -/

/-- The state in which PACK ends where its source group fits. -/
def packed (w : Width) (rd ra : Reg) (s : State) : State :=
  (s.applyWrites (packWrites w rd ra s)).answer (.completion 0)

theorem exec_pack_of_fits {w : Width} {ra : Reg} (hfit : ra.val + w.count - 1 ≤ 15) (rd : Reg) (s : State) :
    exec (.pack w rd ra) s = .next (packed w rd ra s) :=
  (exec_pack w rd ra s).trans (if_pos (groupOk_iff.mpr hfit))

theorem exec_pack_past_p15 {w : Width} {ra : Reg} (hpast : ra.val + w.count - 1 > 15) (rd : Reg) (s : State) :
    exec (.pack w rd ra) s = s.reject .regRange :=
  (exec_pack w rd ra s).trans (if_neg (mt groupOk_iff.mp (Nat.not_le.mpr hpast)))

/-- `c[k]` of the packed register is `c[0]` of the k-th source register, as it was. -/
theorem c_packed {w : Width} {rd ra q : Reg} {s : State} {k : InstIx} (hk : k.val < w.count)
    (hq : q.val = ra.val + k.val) : (packed w rd ra s).c rd k = s.c q 0 := by
  rw [packed, answer_c, c_packWrites, if_pos ⟨rfl, hk⟩, groupReg_eq hq]

theorem c_packed_of_ne {rd r : Reg} (hr : r ≠ rd) (w : Width) (ra : Reg) (s : State) (k : InstIx) :
    (packed w rd ra s).c r k = s.c r k :=
  (c_packWrites w rd ra s r k).trans (if_neg fun h => hr h.1)

theorem completedOn_packed {w : Width} {rd ra : Reg} {s : State} :
    CompletedOn (fun r l => r == rd && activeLane w l) s (packed w rd ra s) where
  toOnlyLanes := onlyLanes_applyWrites (fun _ _ => writesTo_row_laneInst.mp) s _
  replies := by simp [packed]

/-! ## The state after UNPACK (41_pack_unpack.md R101) -/

/-- The state in which UNPACK ends where its destination group fits. -/
def unpacked (w : Width) (rd ra : Reg) (s : State) : State :=
  (s.applyWrites (unpackWrites w rd ra s)).answer (.completion 0)

theorem exec_unpack_of_fits {w : Width} {rd : Reg} (hfit : rd.val + w.count - 1 ≤ 15) (ra : Reg) (s : State) :
    exec (.unpack w rd ra) s = .next (unpacked w rd ra s) :=
  (exec_unpack w rd ra s).trans (if_pos (groupOk_iff.mpr hfit))

theorem exec_unpack_past_p15 {w : Width} {rd : Reg} (hpast : rd.val + w.count - 1 > 15) (ra : Reg) (s : State) :
    exec (.unpack w rd ra) s = s.reject .regRange :=
  (exec_unpack w rd ra s).trans (if_neg (mt groupOk_iff.mp (Nat.not_le.mpr hpast)))

section
variable {w : Width} {rd : Reg} (hfit : rd.val + w.count - 1 ≤ 15)
include hfit

/-- `c[0]` of the k-th destination register is `c[k]` of the packed register, as it was. -/
theorem c_unpacked {ra q : Reg} {s : State} {k : InstIx} (hk : k.val < w.count) (hq : q.val = rd.val + k.val) :
    (unpacked w rd ra s).c q 0 = s.c ra k :=
  c_unpackWrites_of_named w rd ra s k q hfit hk hq

theorem c_unpacked_of_not_inGroup {r : Reg} (hr : inGroup rd w.count r = false) (ra : Reg) (s : State) (k : InstIx) :
    (unpacked w rd ra s).c r k = s.c r k :=
  c_unpackWrites_of_not_named w rd ra s r k hfit (.inr (of_decide_eq_false hr))

theorem completedOn_unpacked {ra : Reg} {s : State} :
    CompletedOn (fun r l => inGroup rd w.count r && activeLane .w1 l) s (unpacked w rd ra s) where
  toOnlyLanes := onlyLanes_applyWrites (fun _ _ => (writesTo_unpackWrites (by omega)).mp) s _
  replies := by simp [unpacked]

end

/-- Equal complex values in two registers have equal lanes. -/
theorem lane_eq_of_c_eq_c {s t : State} {r q : Reg} {l : LaneIx} (h : s.c r (laneInst l) = t.c q (laneInst l)) :
    s.lane r l = t.lane q l := by
  obtain ⟨k, rfl | rfl⟩ := lane_of_instance l
  · rw [laneInst_reLane] at h
    exact congrArg Cplx.re h
  · rw [laneInst_imLane] at h
    exact congrArg Cplx.im h

/-! ## The six operands of a solver command (30_encoding.md R63) -/

/-- The register of operand `j` of a solver command: h00, h01, h10, h11 in the group at `ra`, then y0, y1 in that at `rb`. -/
def solverReg (ra rb : Reg) (j : Fin 6) : Reg := if j.val < 4 then groupReg ra j.val else groupReg rb (j.val - 4)

/-- `q` lists the six operand registers by their numbers, so both groups exist in full. -/
def AreSolverRegs (ra rb : Reg) (q : Fin 6 → Reg) : Prop :=
  ∀ j : Fin 6, (q j).val = if j.val < 4 then ra.val + j.val else rb.val + (j.val - 4)

/-- The six operands of problem k of a solver command. -/
def solverOperands (ra rb : Reg) (s : State) (k : InstIx) (j : Fin 6) : Cplx := s.c (solverReg ra rb j) k

theorem solverReg_eq {ra rb : Reg} {q : Fin 6 → Reg} (hq : AreSolverRegs ra rb q) (j : Fin 6) :
    solverReg ra rb j = q j := by
  have hj := hq j
  unfold solverReg
  split_ifs at hj ⊢ with hlt
  · exact groupReg_eq hj
  · exact groupReg_eq hj

/-- Groups whose last registers exist do not pass P15. -/
theorem solverFits_of_regs {rd rd1 ra rb : Reg} {q : Fin 6 → Reg} (hrd1 : rd1.val = rd.val + 1)
    (hq : AreSolverRegs ra rb q) : SolverFits rd ra rb := by
  have hra : (q 3).val = ra.val + 3 := hq 3
  have hrb : (q 5).val = rb.val + 1 := hq 5
  refine ⟨?_, ?_, ?_⟩ <;> omega

theorem zfResult_eq (ra rb : Reg) (sg : SReg) (s : State) (k : InstIx) :
    zfResult ra rb sg s k =
      let x := solverOperands ra rb s k
      zfcore (x 0) (x 1) (x 2) (x 3) (x 4) (x 5) (s.scalar sg) := by
  simp [zfResult, solverOperands, solverReg]

theorem mmseResult_eq (ra rb : Reg) (sg sn : SReg) (s : State) (k : InstIx) :
    mmseResult ra rb sg sn s k =
      let x := solverOperands ra rb s k
      mmsecore (x 0) (x 1) (x 2) (x 3) (x 4) (x 5) (s.scalar sg) (s.scalar sn) := by
  simp [mmseResult, solverOperands, solverReg]

/-- The two solver commands each apply one function of six operands, g and n0 to each of its problems at every width. -/
theorem exists_solverResult {mk : Width → Reg → Reg → Reg → SReg → SReg → Instr}
    (h : mk ∈ [fun w rd ra rb sg _ => Instr.zf w rd ra rb sg, Instr.mmse]) :
    ∃ f : (Fin 6 → Cplx) → Word → Word → Cplx × Cplx, ∀ w rd ra rb sg sn s, SolverFits rd ra rb →
      exec (mk w rd ra rb sg sn) s =
        .next (solverResult (fun k => f (solverOperands ra rb s k) (s.scalar sg) (s.scalar sn)) w rd s) := by
  simp only [List.mem_cons, List.not_mem_nil, or_false] at h
  rcases h with rfl | rfl
  · refine ⟨fun x g _ => zfcore (x 0) (x 1) (x 2) (x 3) (x 4) (x 5) g, fun w rd ra rb sg sn s hfit => ?_⟩
    rw [exec_zf_of_fits hfit, funext (zfResult_eq ra rb sg s)]
  · refine ⟨fun x g n0 => mmsecore (x 0) (x 1) (x 2) (x 3) (x 4) (x 5) g n0, fun w rd ra rb sg sn s hfit => ?_⟩
    rw [exec_mmse_of_fits hfit, funext (mmseResult_eq ra rb sg sn s)]

/-- A solver command leaves the pair (x0, x1) of problem k in `c[k]` of its two destination registers. -/
theorem c_solverResult_of_active {w : Width} {rd rd1 : Reg} (hrd1 : rd1.val = rd.val + 1) (x : InstIx → Cplx × Cplx)
    (s : State) {k : InstIx} (hk : k.val < w.count) :
    (solverResult x w rd s).c rd k = (x k).1 ∧ (solverResult x w rd s).c rd1 k = (x k).2 := by
  have hne : rd1 ≠ rd := fun h => by rw [h] at hrd1; omega
  simp [solverResult, c_solverWrites x w rd s _ k (by omega), groupReg_eq hrd1, hk, hne]

end Sys2Proof.Machine

namespace Sys2Proof.Proofs

open Sys2Proof.Machine

/-- Settles O25, by whether the source group fits. -/
theorem packResult : Obligations.PackResult := fun _ rd _ s =>
  ⟨fun hfit => ⟨_, exec_pack_of_fits hfit rd s, completedOn_packed, fun _ _ => c_packed⟩,
    fun hpast => exec_pack_past_p15 hpast rd s⟩

/-- Settles O26, by whether the destination group fits; lanes 0 and 1 are those of a command of width 1. -/
theorem unpackResult : Obligations.UnpackResult := fun _ _ ra s =>
  ⟨fun hfit => ⟨_, exec_unpack_of_fits hfit ra s, completedOn_unpacked hfit, fun _ _ => c_unpacked hfit⟩,
    fun hpast => exec_unpack_past_p15 hpast ra s⟩

/-- Settles O36: between the two commands `c[k]` of the packed register holds the value. -/
theorem packThenUnpack : Obligations.PackThenUnpack := by
  intro w d a e s ha he
  refine ⟨_, _, exec_pack_of_fits ha d s, exec_unpack_of_fits he d _, fun k q q' hk hq hq' => ?_⟩
  rw [c_unpacked he hk hq, c_packed hk hq']

/-- Settles O37: between the two commands `c[0]` of register k of the group holds `c[k]` of the source, of
which the lane is a part. -/
theorem unpackThenPack : Obligations.UnpackThenPack := by
  intro w d a e s he
  refine ⟨_, _, exec_unpack_of_fits he a s, exec_pack_of_fits he d _, fun l hl => lane_eq_of_c_eq_c ?_⟩
  have hk : (laneInst l).val < w.count := activeLane_iff.mp (decide_eq_true hl)
  have hq : (groupReg e (laneInst l).val).val = e.val + (laneInst l).val := groupReg_val (by omega)
  rw [c_packed hk hq, c_unpacked he hk hq]

/-- Settles O38: the first packed register and the second group survive the packs, so the command's function is applied to the
two scalars at either width. -/
theorem packComputeUnpack : Obligations.PackComputeUnpack := by
  intro mk hmk w a b pa pb pd e s ha hb he hpa hne
  obtain ⟨f, hexec⟩ := exists_binaryResult hmk
  refine ⟨_, _, _, _, exec_pack_of_fits ha pa s, exec_pack_of_fits hb pb _, hexec w pd pa pb _,
    exec_unpack_of_fits he pd _, fun k qa qb qe d hk hqa hqb hqe => ⟨_, hexec .w1 d qa qb s, ?_⟩⟩
  have hqb_ne : qb ≠ pa := by
    rintro rfl
    exact of_decide_eq_false hpa (by omega)
  rw [c_unpacked he hk hqe, c_binaryResult_of_active f hk, c_binaryResult_of_active f Nat.one_pos,
    c_packed_of_ne hne, c_packed hk hqa, c_packed hk hqb, c_packed_of_ne hqb_ne]

/-- Settles O55: the packs give problem k its six scalars, so the solver's function is applied to the same operands at either
width, and the first UNPACK leaves x1 where the second reads it. -/
theorem packSolveUnpack : Obligations.PackSolveUnpack := by
  intro mk hmk w rd rd1 ra rb e e1 sg sn g q before hrd1 hq hg he he1 hrd1_kept
  obtain ⟨f, hexec⟩ := exists_solverResult hmk
  refine ⟨_, fun j => exec_pack_of_fits (hg j) (q j) (before j), fun s hs => ?_⟩
  refine ⟨_, _, _, hexec w rd ra rb sg sn s (solverFits_of_regs hrd1 hq), exec_unpack_of_fits he rd _,
    exec_unpack_of_fits he1 rd1 _, ?_⟩
  intro k qe qe1 rd' rd1' ra' rb' sg' sn' q' s' hk hqe hqe1 hrd1' hq' hs' hsg hsn
  refine ⟨_, hexec .w1 rd' ra' rb' sg' sn' s' (solverFits_of_regs hrd1' hq'), ?_⟩
  have hops : solverOperands ra rb s k = solverOperands ra' rb' s' 0 := by
    funext j
    have hval : (groupReg (g j) k.val).val = (g j).val + k.val := groupReg_val (by have := hg j; omega)
    rw [solverOperands, solverOperands, solverReg_eq hq, solverReg_eq hq', hs j k hk, c_packed hk hval, hs' j _ hval]
  obtain ⟨hx0, hx1⟩ := c_solverResult_of_active hrd1
    (fun k => f (solverOperands ra rb s k) (s.scalar sg) (s.scalar sn)) s hk
  obtain ⟨hx0', hx1'⟩ := c_solverResult_of_active (w := .w1) hrd1'
    (fun k => f (solverOperands ra' rb' s' k) (s'.scalar sg') (s'.scalar sn')) s' (k := 0) Nat.one_pos
  rw [c_unpacked he hk hqe, c_unpacked he1 hk hqe1, c_unpacked_of_not_inGroup he hrd1_kept, hx0, hx1, hx0', hx1',
    hops, hsg, hsn]
  exact ⟨rfl, rfl⟩

end Sys2Proof.Proofs
end

section
/-! The zero-forcing solver (42_zf_solver.md R110 to R116): how a NaN and a zero determinant go through the solver core, what the
identity leaves of y, and what a solver command writes at every width (for MMSE too, 43_mmse_solver.md R127(c)). -/

namespace Sys2Proof.Machine

/-! ## A NaN in H (R114(c)) -/

/-- The complex value with the canonical NaN in both parts. -/
def nanCplx : Cplx := ⟨cnan, cnan⟩

/-- Some part of the value is a NaN. -/
def HasNaN (x : Cplx) : Prop := isNaN x.re = true ∨ isNaN x.im = true

/-- Each part of a product reads all four parts of the factors. -/
theorem cmul_of_hasNaN {a b : Cplx} (h : HasNaN a ∨ HasNaN b) : cmul a b = nanCplx := by
  unfold HasNaN at h
  have hre : isNaN (fmul a.re b.re) = true ∨ isNaN (fmul a.im b.im) = true := isNaN_products (by tauto)
  have him : isNaN (fmul a.re b.im) = true ∨ isNaN (fmul a.im b.re) = true := isNaN_products (by tauto)
  rw [cmul, fsub_of_isNaN hre, fadd_of_isNaN him, nanCplx]

theorem csub_of_nanCplx {a b : Cplx} (h : a = nanCplx ∨ b = nanCplx) : csub a b = nanCplx := by
  rcases h with rfl | rfl
  · simp only [csub, nanCplx, fsub_of_isNaN (.inl isNaN_cnan)]
  · simp only [csub, nanCplx, fsub_of_isNaN (.inr isNaN_cnan)]

/-- The determinant reads every part of H. -/
theorem zfdet_of_hasNaN {h00 h01 h10 h11 : Cplx} (h : ∃ x ∈ [h00, h01, h10, h11], HasNaN x) :
    zfdet h00 h01 h10 h11 = nanCplx := by
  simp only [List.mem_cons, List.not_mem_nil, or_false, exists_eq_or_imp, exists_eq_left] at h
  rcases h with h | h | h | h
  · exact csub_of_nanCplx (.inl (cmul_of_hasNaN (.inl h)))
  · exact csub_of_nanCplx (.inr (cmul_of_hasNaN (.inl h)))
  · exact csub_of_nanCplx (.inr (cmul_of_hasNaN (.inr h)))
  · exact csub_of_nanCplx (.inl (cmul_of_hasNaN (.inr h)))

theorem cdiv_nanCplx (a : Cplx) : cdiv a nanCplx = nanCplx := by
  have hden : isNaN (fadd (fmul cnan cnan) (fmul cnan cnan)) = true := by decide
  simp only [cdiv, nanCplx, fdiv_of_isNaN (.inr hden)]

theorem cscale_nanCplx (g : Word) : cscale nanCplx g = nanCplx := by
  simp only [cscale, nanCplx, fmul_of_isNaN (.inl isNaN_cnan)]

/-- Both quotients of the solver core have the determinant as their divisor. -/
theorem zfcore_of_cdiv_zfdet {h00 h01 h10 h11 : Cplx} (h : ∀ a, cdiv a (zfdet h00 h01 h10 h11) = nanCplx) (y0 y1 : Cplx)
    (g : Word) : zfcore h00 h01 h10 h11 y0 y1 g = (nanCplx, nanCplx) := by
  simp only [zfcore, h, cscale_nanCplx]

/-! ## A determinant of two zeros (R113(a)) -/

/-- What products by a zero, and their sums and differences, can be. -/
def ZeroOrNaN (a : Word) : Prop := isZero a = true ∨ isNaN a = true

theorem zeroOrNaN_fmul {b : Word} (hb : isZero b = true) (a : Word) : ZeroOrNaN (fmul a b) := by
  rcases isNaN_or_isInf_or_isFinite a with ha | ha | ha
  · exact .inr (isNaN_fmul_of_isNaN (.inl ha))
  · rw [fmul_of_isInf_isZero ha hb]
    exact .inr isNaN_cnan
  · exact .inl (isZero_fmul_of_isZero (.inr hb) ha (isFinite_of_isZero hb))

theorem ZeroOrNaN.fadd {a b : Word} (ha : ZeroOrNaN a) (hb : ZeroOrNaN b) : ZeroOrNaN (fadd a b) := by
  by_cases hnan : isNaN a = true ∨ isNaN b = true
  · rw [fadd_of_isNaN hnan]
    exact .inr isNaN_cnan
  · exact .inl (isZero_fadd_of_zeros (ha.resolve_right fun h => hnan (.inl h)) (hb.resolve_right fun h => hnan (.inr h)))

theorem ZeroOrNaN.fsub {a b : Word} (ha : ZeroOrNaN a) (hb : ZeroOrNaN b) : ZeroOrNaN (fsub a b) := by
  rw [fsub_eq_fadd_fneg]
  exact ha.fadd (by rwa [ZeroOrNaN, isZero_fneg, isNaN_fneg])

theorem ZeroOrNaN.fdiv {a b : Word} (ha : ZeroOrNaN a) (hb : ZeroOrNaN b) : fdiv a b = cnan := by
  by_cases hnan : isNaN a = true ∨ isNaN b = true
  · exact fdiv_of_isNaN hnan
  · exact fdiv_of_zeros (ha.resolve_right fun h => hnan (.inl h)) (hb.resolve_right fun h => hnan (.inr h))

/-- Over a complex zero no dividend, finite or not, has another quotient than the canonical NaN. -/
theorem cdiv_of_zero_parts {b : Cplx} (hre : isZero b.re = true) (him : isZero b.im = true) (a : Cplx) :
    cdiv a b = nanCplx := by
  have hden : ZeroOrNaN (fadd (fmul b.re b.re) (fmul b.im b.im)) := (zeroOrNaN_fmul hre _).fadd (zeroOrNaN_fmul him _)
  have hnre : ZeroOrNaN (fadd (fmul a.re b.re) (fmul a.im b.im)) := (zeroOrNaN_fmul hre _).fadd (zeroOrNaN_fmul him _)
  have hnim : ZeroOrNaN (fsub (fmul a.im b.re) (fmul a.re b.im)) := (zeroOrNaN_fmul hre _).fsub (zeroOrNaN_fmul him _)
  rw [cdiv, hnre.fdiv hden, hnim.fdiv hden, nanCplx]

/-! ## Products and quotients by 1.0 -/

/-- The pattern of 1.0 (R114(e)). -/
def pone : Word := 0x3F800000

theorem isFinite_pone : isFinite pone = true := by decide
theorem isZero_pone : isZero pone = false := by decide
theorem signBit_pone : signBit pone = false := by decide
theorem units_pone : units pone = 2 ^ 149 := by decide +kernel

/-- Rounding does not see a common factor of numerator and denominator. -/
theorem roundsTo_of_scaled {num : Int} {den k : Nat} {r : Word} (hk : 0 < k) (h : RoundsTo (num * k) (den * k) r) :
    RoundsTo num den r := by
  have hdist (c : Word) : (units c * (den * k : Nat) - num * k).natAbs = (units c * den - num).natAbs * k := by
    rw [Nat.cast_mul, ← Int.mul_assoc, ← Int.sub_mul, Int.natAbs_mul, Int.natAbs_natCast]
  have hsign : num * k < 0 ↔ num < 0 := by
    rw [mul_neg_iff]
    omega
  have hover : (2 ^ 25 - 1) * 2 ^ 252 * (den * k) ≤ (num * k).natAbs ↔ (2 ^ 25 - 1) * 2 ^ 252 * den ≤ num.natAbs := by
    rw [Int.natAbs_mul, Int.natAbs_natCast, ← Nat.mul_assoc, Nat.mul_le_mul_right_iff hk]
  simpa only [RoundsTo, hdist, hsign, hover, Nat.mul_le_mul_right_iff hk, Nat.mul_left_inj hk.ne'] using h

/-- A zero is the zero of its sign. -/
theorem signedZero_signBit {a : Word} (h : isZero a = true) : signedZero (signBit a) = a :=
  eq_of_isZero (isZero_signedZero _) h (signBit_signedZero _)

theorem fmul_pone {a : Word} (h : isFinite a = true) : fmul a pone = a := by
  cases hz : isZero a with
  | true => rw [fmul_of_isZero (.inl hz) h isFinite_pone, signBit_pone, Bool.xor_false, signedZero_signBit hz]
  | false =>
    have hround := roundsTo_fmul h isFinite_pone hz isZero_pone
    rw [units_pone, ← Nat.one_mul (2 ^ 149)] at hround
    exact eq_of_roundsTo_units h (signBit_eq_of_not_isZero hz) (roundsTo_of_scaled (by decide) hround)

theorem fdiv_pone {a : Word} (h : isFinite a = true) : fdiv a pone = a := by
  cases hz : isZero a with
  | true => rw [fdiv_of_isZero_left hz isFinite_pone isZero_pone, signBit_pone, Bool.xor_false, signedZero_signBit hz]
  | false =>
    have hround := roundsTo_fdiv h isFinite_pone hz isZero_pone
    rw [units_pone, signBit_pone, if_neg Bool.false_ne_true, show (2 ^ 149 : Int).natAbs = 1 * 2 ^ 149 from rfl] at hround
    exact eq_of_roundsTo_units h (signBit_eq_of_not_isZero hz) (roundsTo_of_scaled (by decide) hround)

/-! ## The identity as H (R114(e)) -/

/-- The finite `v` is `u` bit for bit, or a zero where `u` is a zero of either sign. -/
def Returned (u v : Word) : Prop := isFinite v = true ∧ if isZero u = true then isZero v = true else v = u

theorem Returned.refl {u : Word} (h : isFinite u = true) : Returned u u := by
  refine ⟨h, ?_⟩
  split
  · assumption
  · rfl

/-- Adding a zero can change the sign of a zero and nothing else. -/
theorem Returned.fadd_zero {u v z : Word} (h : Returned u v) (hz : isZero z = true) : Returned u (fadd v z) := by
  obtain ⟨hfin, hv⟩ := h
  cases hzv : isZero v with
  | true =>
    have hsum := isZero_fadd_of_zeros hzv hz
    have hu : isZero u = true := by
      by_contra hu
      rw [if_neg hu] at hv
      exact hu (hv ▸ hzv)
    exact ⟨isFinite_of_isZero hsum, by rwa [if_pos hu]⟩
  | false =>
    rw [Machine.fadd_zero hz hzv (isFinite_iff.mp hfin).1]
    exact ⟨hfin, hv⟩

theorem Returned.fsub_zero {u v z : Word} (h : Returned u v) (hz : isZero z = true) : Returned u (fsub v z) := by
  rw [fsub_eq_fadd_fneg]
  exact h.fadd_zero ((isZero_fneg z).trans hz)

/-- The diagonal entry of the identity matrix. -/
def oneCplx : Cplx := ⟨pone, pzero⟩

/-- The entry beside the diagonal. -/
def zeroCplx : Cplx := ⟨pzero, pzero⟩

theorem zfdet_identity : zfdet oneCplx zeroCplx zeroCplx oneCplx = oneCplx := by decide +kernel

/-- Both parts come back. -/
structure CplxReturned (y x : Cplx) : Prop where
  re : Returned y.re x.re
  im : Returned y.im x.im

section
variable {y x : Cplx} (h : CplxReturned y x)
include h

theorem isZero_pzero_fmul_parts : isZero (fmul pzero x.re) = true ∧ isZero (fmul pzero x.im) = true :=
  ⟨isZero_fmul_of_isZero (.inl isZero_pzero) (isFinite_of_isZero isZero_pzero) h.re.1,
    isZero_fmul_of_isZero (.inl isZero_pzero) (isFinite_of_isZero isZero_pzero) h.im.1⟩

theorem isZero_cmul_zeroCplx : isZero (cmul zeroCplx x).re = true ∧ isZero (cmul zeroCplx x).im = true := by
  obtain ⟨hre, him⟩ := isZero_pzero_fmul_parts h
  exact ⟨isZero_fsub_of_zeros hre him, isZero_fadd_of_zeros him hre⟩

theorem CplxReturned.cmul_oneCplx : CplxReturned y (cmul oneCplx x) := by
  obtain ⟨hre, him⟩ := isZero_pzero_fmul_parts h
  constructor
  · rw [cmul, oneCplx, fmul_comm pone, fmul_pone h.re.1]
    exact h.re.fsub_zero him
  · rw [cmul, oneCplx, fmul_comm pone x.im, fmul_pone h.im.1]
    exact h.im.fadd_zero hre

theorem CplxReturned.csub_zero {z : Cplx} (hre : isZero z.re = true) (him : isZero z.im = true) :
    CplxReturned y (csub x z) :=
  ⟨h.re.fsub_zero hre, h.im.fsub_zero him⟩

theorem CplxReturned.cdiv_oneCplx : CplxReturned y (cdiv x oneCplx) := by
  obtain ⟨hre, him⟩ := isZero_pzero_fmul_parts h
  have hden : fadd (fmul pone pone) (fmul pzero pzero) = pone := by decide +kernel
  simp only [cdiv, oneCplx, hden, fmul_pone h.re.1, fmul_pone h.im.1, fmul_comm _ pzero]
  have hnre := h.re.fadd_zero him
  have hnim := h.im.fsub_zero hre
  constructor
  · rw [fdiv_pone hnre.1]
    exact hnre
  · rw [fdiv_pone hnim.1]
    exact hnim

theorem CplxReturned.cscale_pone : CplxReturned y (cscale x pone) := by
  rw [cscale, fmul_pone h.re.1, fmul_pone h.im.1]
  exact h

end

/-- One row of the identity, applied to y: the other sample enters as a zero. -/
theorem cplxReturned_identity_row {y z : Cplx} (hy : CplxReturned y y) (hz : CplxReturned z z) :
    CplxReturned y (cscale (cdiv (csub (cmul oneCplx y) (cmul zeroCplx z)) oneCplx) pone) := by
  obtain ⟨hre, him⟩ := isZero_cmul_zeroCplx hz
  exact (hy.cmul_oneCplx.csub_zero hre him).cdiv_oneCplx.cscale_pone

theorem cplxReturned_zfcore_identity {y0 y1 : Cplx} (h0 : CplxReturned y0 y0) (h1 : CplxReturned y1 y1) :
    CplxReturned y0 (zfcore oneCplx zeroCplx zeroCplx oneCplx y0 y1 pone).1 ∧
      CplxReturned y1 (zfcore oneCplx zeroCplx zeroCplx oneCplx y0 y1 pone).2 := by
  simp only [zfcore, zfdet_identity]
  exact ⟨cplxReturned_identity_row h0 h1, cplxReturned_identity_row h1 h0⟩

/-! ## A solver command at every width (R111, R116) -/

/-- Only the active lanes of the two destination registers change, and the code is 0. -/
theorem completedOn_solverResult {rd rd1 : Reg} (hrd1 : rd1.val = rd.val + 1) (x : InstIx → Cplx × Cplx) (w : Width)
    (s : State) : CompletedOn (fun r l => (r == rd || r == rd1) && activeLane w l) s (solverResult x w rd s) where
  toOnlyLanes := onlyLanes_applyWrites (fun r l hto => by
    have hfit : GroupFits rd 2 := by omega
    rw [writesTo_solverWrites hfit, Bool.and_eq_true, inGroup_two_iff hfit, groupReg_eq hrd1] at hto
    simpa using hto) s _
  replies := by simp [solverResult]

theorem zfResult_of_regs {ra ra1 ra2 ra3 rb rb1 : Reg} (h1 : ra1.val = ra.val + 1) (h2 : ra2.val = ra.val + 2)
    (h3 : ra3.val = ra.val + 3) (hb : rb1.val = rb.val + 1) (sg : SReg) (s : State) (k : InstIx) :
    zfResult ra rb sg s k =
      zfcore (s.c ra k) (s.c ra1 k) (s.c ra2 k) (s.c ra3 k) (s.c rb k) (s.c rb1 k) (s.scalar sg) := by
  rw [zfResult, groupReg_eq h1, groupReg_eq h2, groupReg_eq h3, groupReg_eq hb]

theorem solverFits_of_wf {mk : Width → Reg → Reg → Reg → SReg → SReg → Instr}
    (h : mk ∈ [fun w rd ra rb sg _ => Instr.zf w rd ra rb sg, Instr.mmse]) {w : Width} {rd ra rb : Reg} {sg sn : SReg}
    (hwf : (mk w rd ra rb sg sn).wf = true) : SolverFits rd ra rb := by
  simp only [List.mem_cons, List.not_mem_nil, or_false] at h
  rcases h with rfl | rfl
  · rwa [wf_zf, decide_eq_true_iff] at hwf
  · rwa [wf_mmse, decide_eq_true_iff] at hwf

/-- Problems whose two source groups hold the same values, register by register, have the same operands. -/
theorem solverOperands_eq {ra rb ra' rb' : Reg} {s s' : State} {k k' : InstIx}
    (ha : ∀ j < 4, s.c (groupReg ra j) k = s'.c (groupReg ra' j) k')
    (hb : ∀ j < 2, s.c (groupReg rb j) k = s'.c (groupReg rb' j) k') :
    solverOperands ra rb s k = solverOperands ra' rb' s' k' := by
  funext j
  unfold solverOperands solverReg
  split
  · next hj => exact ha j.val hj
  · exact hb (j.val - 4) (by omega)

/-- Solver commands that get the same pair for a problem leave the same values in their destinations. -/
theorem c_solverResult_eq {w w' : Width} {rd rd' : Reg} {x x' : InstIx → Cplx × Cplx} {s s' : State} {k k' : InstIx}
    (hfit : GroupFits rd 2) (hfit' : GroupFits rd' 2) (hk : k.val < w.count) (hk' : k'.val < w'.count)
    (h : x k = x' k') :
    (solverResult x w rd s).c rd k = (solverResult x' w' rd' s').c rd' k' ∧
      ∀ q q' : Reg, q.val = rd.val + 1 → q'.val = rd'.val + 1 →
        (solverResult x w rd s).c q k = (solverResult x' w' rd' s').c q' k' := by
  constructor
  · obtain ⟨hx, -⟩ := c_solverResult_of_active (groupReg_val hfit) x s hk
    obtain ⟨hx', -⟩ := c_solverResult_of_active (groupReg_val hfit') x' s' hk'
    rw [hx, hx', h]
  · intro q q' hq hq'
    obtain ⟨-, hx⟩ := c_solverResult_of_active hq x s hk
    obtain ⟨-, hx'⟩ := c_solverResult_of_active hq' x' s' hk'
    rw [hx, hx', h]

end Sys2Proof.Machine

namespace Sys2Proof.Proofs

open Sys2Proof.Machine

/-- Settles O17: the NaN is in both parts of the determinant, and from there in both quotients. -/
theorem naNInMatrixReachesAllResults : Obligations.NaNInMatrixReachesAllResults := by
  intro h00 h01 h10 h11 y0 y1 g h
  refine zfcore_of_cdiv_zfdet (fun a => ?_) y0 y1 g
  rw [zfdet_of_hasNaN h, cdiv_nanCplx]

/-- Settles O18: y passes through products and a quotient by 1 and through sums with zeros. -/
theorem identityMatrixReturnsInput : Obligations.IdentityMatrixReturnsInput := by
  intro y0 y1 h0re h0im h1re h1im
  obtain ⟨h0, h1⟩ := cplxReturned_zfcore_identity (y0 := y0) (y1 := y1) ⟨.refl h0re, .refl h0im⟩ ⟨.refl h1re, .refl h1im⟩
  exact ⟨h0.re.2, h0.im.2, h1.re.2, h1.im.2⟩

/-- Settles O27: the frame and the two results of a solver command. -/
theorem zfResult : Obligations.ZfResult := by
  intro w rd rd1 ra ra1 ra2 ra3 rb rb1 sg s hrd1 hra1 hra2 hra3 hrb1
  have hfit : SolverFits rd ra rb := ⟨by omega, by omega, by omega⟩
  refine ⟨_, exec_zf_of_fits hfit w sg s, completedOn_solverResult hrd1 _ w s, fun k hk => ?_⟩
  obtain ⟨hx0, hx1⟩ := c_solverResult_of_active hrd1 (Machine.zfResult ra rb sg s) s hk
  rw [hx0, hx1, zfResult_of_regs hra1 hra2 hra3 hrb1]

/-- Settles O34: at either width the results are the solver's function of the same six operands, g and n0. -/
theorem solverWidthEquivalence : Obligations.SolverWidthEquivalence := by
  intro mk hmk w rd ra rb rd' ra' rb' sg sn sg' sn' k s s' hk hwf hwf' ha hb hsg hsn
  obtain ⟨f, hexec⟩ := exists_solverResult hmk
  have hfit := solverFits_of_wf hmk hwf
  have hfit' := solverFits_of_wf hmk hwf'
  refine ⟨_, _, hexec w rd ra rb sg sn s hfit, hexec .w1 rd' ra' rb' sg' sn' s' hfit', ?_⟩
  obtain ⟨hrd, hra, hrb⟩ := hfit
  obtain ⟨hrd', hra', hrb'⟩ := hfit'
  have hops : solverOperands ra' rb' s' 0 = solverOperands ra rb s k :=
    solverOperands_eq (fun j hj => ha j _ _ hj (groupReg_val (by omega)) (groupReg_val (by omega)))
      (fun j hj => hb j _ _ hj (groupReg_val (by omega)) (groupReg_val (by omega)))
  exact c_solverResult_eq hrd hrd' hk Nat.one_pos (by rw [hops, hsg, hsn])

/-- Settles O40: the command is the solver core, and both its quotients are over a complex zero. -/
theorem singularChannelGivesNaN : Obligations.SingularChannelGivesNaN := by
  intro w rd rd1 ra ra1 ra2 ra3 rb sg s k hk hrd1 hra1 hra2 hra3 hrb det hre him
  obtain ⟨t, hexec, hdone, hpair⟩ := zfResult w rd rd1 ra ra1 ra2 ra3 rb (groupReg rb 1) sg s hrd1 hra1 hra2 hra3
    (groupReg_val hrb)
  have hnan := (hpair k hk).trans (zfcore_of_cdiv_zfdet (cdiv_of_zero_parts hre him) _ _ _)
  obtain ⟨hx0, hx1⟩ := Prod.mk.inj hnan
  exact ⟨t, hexec, hdone.replies, hx0, hx1⟩

end Sys2Proof.Proofs
end

section
/-! The MMSE solver (43_mmse_solver.md R120 to R125): the signs of the zeros in the Gram stage, which decide the imaginary parts of
the Gram matrix and of its determinant and whether a noise of -0 differs from one of +0, and what the command writes. -/

namespace Sys2Proof.Machine

/-! ## Products with +0 and sums of zeros (40_complex_arith.md R82 to R84) -/

theorem fmul_pzero_of_isFinite {a : Word} (h : isFinite a = true) : fmul a pzero = signedZero (signBit a) := by
  rw [fmul_of_isZero (.inr isZero_pzero) h (isFinite_of_isZero isZero_pzero), signBit_pzero, Bool.xor_false]

theorem fmul_pzero_of_not_isFinite {a : Word} (h : isFinite a = false) : fmul a pzero = cnan := by
  rcases isNaN_or_isInf_or_isFinite a with hnan | hinf | hfin
  · exact fmul_of_isNaN (.inl hnan)
  · exact fmul_of_isInf_isZero hinf isZero_pzero
  · rw [h] at hfin
    contradiction

/-- A sum of zeros carries a minus sign where both do. -/
@[simp] theorem fadd_signedZero (sa sb : Bool) : fadd (signedZero sa) (signedZero sb) = signedZero (sa && sb) := by
  rw [fadd_of_zeros (isZero_signedZero sa) (isZero_signedZero sb), signBit_signedZero, signBit_signedZero]
  cases sa <;> cases sb <;> rfl

/-- A difference of zeros is -0 for (-0) - (+0) alone. -/
@[simp] theorem fsub_signedZero (sa sb : Bool) : fsub (signedZero sa) (signedZero sb) = signedZero (sa && !sb) := by
  rw [fsub_eq_fadd_fneg, fneg_signedZero, fadd_signedZero]

/-- Products with +0 on either side add to +0 where not both values carry a minus sign. -/
theorem fadd_pzero_products {a b : Word} (ha : isFinite a = true) (hb : isFinite b = true)
    (hs : (signBit a && signBit b) = false) : fadd (fmul a pzero) (fmul pzero b) = pzero := by
  rw [fmul_comm pzero, fmul_pzero_of_isFinite ha, fmul_pzero_of_isFinite hb, fadd_signedZero, hs]
  rfl

/-! ## The determinant of the Gram matrix (43_mmse_solver.md R122) -/

/-- The two products in the imaginary part of z · conj z are each other's negation. -/
theorem im_cmul_cconj_self {z : Cplx} (h : isFinite (fmul z.re z.im) = true) : (cmul z (cconj z)).im = pzero := by
  have hcancel : fsub (fmul z.re z.im) (fmul z.im z.re) = pzero := by rw [fmul_comm z.im, fsub_self, if_pos h]
  rw [cmul_comm, cmul_cconj, hcancel]

theorem im_gram_det {d0 d1 : Word} {z : Cplx} (h0 : isFinite d0 = true) (h1 : isFinite d1 = true)
    (hs : (signBit d0 && signBit d1) = false) (hz : isFinite (fmul z.re z.im) = true) :
    (csub (cmul ⟨d0, pzero⟩ ⟨d1, pzero⟩) (cmul z (cconj z))).im = pzero := by
  rw [csub, im_cmul_cconj_self hz]
  simp only [cmul, fadd_pzero_products h0 h1 hs]
  rfl

/-! ## The off-diagonal of a real H (43_mmse_solver.md R120) -/

section
variable {r00 r01 r10 r11 : Word} (y0 y1 : Cplx) (n0 : Word)

/-- The Gram stage for an H of these real parts, all imaginary parts +0. -/
def realGram (r00 r01 r10 r11 : Word) (y0 y1 : Cplx) (n0 : Word) : GramSystem :=
  mmseprep ⟨r00, pzero⟩ ⟨r01, pzero⟩ ⟨r10, pzero⟩ ⟨r11, pzero⟩ y0 y1 n0

theorem im_realGram_a01 :
    (realGram r00 r01 r10 r11 y0 y1 n0).a01.im =
      fadd (fsub (fmul r00 pzero) (fmul r01 pzero)) (fsub (fmul r10 pzero) (fmul r11 pzero)) := by
  simp only [realGram, mmseprep, cadd, cmul_cconj, fmul_comm pzero r01, fmul_comm pzero r11]

theorem im_realGram_a01_of_isFinite (h : ∀ r ∈ [r00, r01, r10, r11], isFinite r = true) :
    (realGram r00 r01 r10 r11 y0 y1 n0).a01.im =
      signedZero ((signBit r00 && !signBit r01) && (signBit r10 && !signBit r11)) := by
  simp only [List.forall_mem_cons, List.not_mem_nil, false_implies, implies_true, and_true] at h
  obtain ⟨h00, h01, h10, h11⟩ := h
  rw [im_realGram_a01, fmul_pzero_of_isFinite h00, fmul_pzero_of_isFinite h01, fmul_pzero_of_isFinite h10,
    fmul_pzero_of_isFinite h11, fsub_signedZero, fsub_signedZero, fadd_signedZero]

/-- An infinity times +0 is a NaN, and a NaN stays one. -/
theorem im_realGram_a01_of_not_isFinite (h : ∃ r ∈ [r00, r01, r10, r11], isFinite r = false) :
    (realGram r00 r01 r10 r11 y0 y1 n0).a01.im = cnan := by
  have hprod {r : Word} (hr : isFinite r = false) : isNaN (fmul r pzero) = true := by
    rw [fmul_pzero_of_not_isFinite hr, isNaN_cnan]
  have hdiff {p q : Word} (hpq : isNaN p = true ∨ isNaN q = true) : isNaN (fsub p q) = true := by
    rw [fsub_of_isNaN hpq, isNaN_cnan]
  simp only [List.mem_cons, List.not_mem_nil, or_false, exists_eq_or_imp, exists_eq_left] at h
  rw [im_realGram_a01]
  rcases h with h | h | h | h
  · exact fadd_of_isNaN (.inl (hdiff (.inl (hprod h))))
  · exact fadd_of_isNaN (.inl (hdiff (.inr (hprod h))))
  · exact fadd_of_isNaN (.inr (hdiff (.inl (hprod h))))
  · exact fadd_of_isNaN (.inr (hdiff (.inr (hprod h))))

end

/-! ## The sign of the noise-free diagonal (43_mmse_solver.md R124), where the canonical NaN counts as a plus sign -/

theorem signBit_cnan : signBit cnan = false := by decide

theorem signBit_fadd_of_plus_signs {a b : Word} (ha : signBit a = false) (hb : signBit b = false) :
    signBit (fadd a b) = false := by
  by_cases hnan : isNaN a = true ∨ isNaN b = true
  · rw [fadd_of_isNaN hnan, signBit_cnan]
  · rw [not_or, Bool.not_eq_true, Bool.not_eq_true] at hnan
    obtain ⟨hna, hnb⟩ := hnan
    exact (fadd_of_plus_signs hna hnb ha hb).2

theorem signBit_fmul_self (a : Word) : signBit (fmul a a) = false := by
  cases hnan : isNaN a with
  | true => rw [fmul_of_isNaN (.inl hnan), signBit_cnan]
  | false => exact (fmul_self hnan).2

theorem signBit_norm2 (a : Cplx) : signBit (norm2 a) = false :=
  signBit_fadd_of_plus_signs (signBit_fmul_self a.re) (signBit_fmul_self a.im)

/-- Only to -0 do the two zeros add differently. -/
theorem fadd_nzero_eq_fadd_pzero {a : Word} (h : signBit a = false) : fadd a nzero = fadd a pzero := by
  cases hnan : isNaN a with
  | true => rw [fadd_of_isNaN (.inl hnan), fadd_of_isNaN (.inl hnan)]
  | false =>
    cases hz : isZero a with
    | true => simp [fadd_of_zeros hz isZero_nzero, fadd_of_zeros hz isZero_pzero, h]
    | false => rw [fadd_zero isZero_nzero hz hnan, fadd_zero isZero_pzero hz hnan]

/-- Each diagonal entry adds n0 to a sum of squares. -/
theorem mmseprep_nzero (h00 h01 h10 h11 y0 y1 : Cplx) :
    mmseprep h00 h01 h10 h11 y0 y1 nzero = mmseprep h00 h01 h10 h11 y0 y1 pzero := by
  have hdiag (a b : Cplx) : fadd (fadd (norm2 a) (norm2 b)) nzero = fadd (fadd (norm2 a) (norm2 b)) pzero :=
    fadd_nzero_eq_fadd_pzero (signBit_fadd_of_plus_signs (signBit_norm2 a) (signBit_norm2 b))
  simp only [mmseprep, hdiag]

theorem mmsecore_nzero (h00 h01 h10 h11 y0 y1 : Cplx) (g : Word) :
    mmsecore h00 h01 h10 h11 y0 y1 g nzero = mmsecore h00 h01 h10 h11 y0 y1 g pzero := by
  simp only [mmsecore, mmseprep_nzero]

/-! ## The command (43_mmse_solver.md R121) -/

theorem mmseResult_of_regs {ra ra1 ra2 ra3 rb rb1 : Reg} (h1 : ra1.val = ra.val + 1) (h2 : ra2.val = ra.val + 2)
    (h3 : ra3.val = ra.val + 3) (hb : rb1.val = rb.val + 1) (sg sn : SReg) (s : State) (k : InstIx) :
    mmseResult ra rb sg sn s k =
      mmsecore (s.c ra k) (s.c ra1 k) (s.c ra2 k) (s.c ra3 k) (s.c rb k) (s.c rb1 k) (s.scalar sg) (s.scalar sn) := by
  rw [mmseResult, groupReg_eq h1, groupReg_eq h2, groupReg_eq h3, groupReg_eq hb]

end Sys2Proof.Machine

namespace Sys2Proof.Proofs

open Sys2Proof.Machine

/-- Settles O19: a sum of two zeros, not both -0, minus a sum of opposite products. -/
theorem gramDeterminantIsReal : Obligations.GramDeterminantIsReal :=
  fun _ _ _ h0 h1 hs ha => im_gram_det h0 h1 hs ha

/-- Settles O20: n0 enters only the two diagonal entries, where it is added to values of plus sign. -/
theorem negativeZeroNoiseIsZeroNoise : Obligations.NegativeZeroNoiseIsZeroNoise :=
  mmsecore_nzero

/-- Settles O28: the frame and the two results of a solver command. -/
theorem mmseResult : Obligations.MmseResult := by
  intro w rd rd1 ra ra1 ra2 ra3 rb rb1 sg sn s hrd1 hra1 hra2 hra3 hrb1
  have hfit : SolverFits rd ra rb := ⟨by omega, by omega, by omega⟩
  refine ⟨_, exec_mmse_of_fits hfit w sg sn s, completedOn_solverResult hrd1 _ w s, fun k hk => ?_⟩
  obtain ⟨hx0, hx1⟩ := c_solverResult_of_active hrd1 (Machine.mmseResult ra rb sg sn s) s hk
  rw [hx0, hx1, mmseResult_of_regs hra1 hra2 hra3 hrb1, mmsecore]

/-- Settles O56: for finite parts the imaginary part is made of four signed zeros; any other part gives a NaN. -/
theorem realMatrixGramImaginaryParts : Obligations.RealMatrixGramImaginaryParts := by
  intro r00 r01 r10 r11 y0 y1 n0
  refine ⟨fun hfin => (im_realGram_a01_of_isFinite y0 y1 n0 hfin).trans ?_,
    im_realGram_a01_of_not_isFinite y0 y1 n0, rfl⟩
  split
  · next hs =>
    obtain ⟨h00, h10, h01, h11⟩ := hs
    rw [h00, h10, h01, h11]
    rfl
  · next hs =>
    have hplus : ((signBit r00 && !signBit r01) && (signBit r10 && !signBit r11)) = false := by
      rw [Bool.eq_false_iff]
      simp only [ne_eq, Bool.and_eq_true, Bool.not_eq_true']
      tauto
    rw [hplus]
    rfl

end Sys2Proof.Proofs
end

section
/-! What a step returns to the host (60_exceptions.md R130 to R133): a rejection returns its code alone, every reply is of the
kind of its transaction, and no completion code passes 4. -/

namespace Sys2Proof.Machine

/-! ## Completion codes (60_exceptions.md R130) -/

theorem LegalReplies.of_append_singleton {s t : State} {r : Reply} (h : LegalReplies s)
    (hreplies : t.replies = s.replies ++ [r]) (hr : r.legal = true) : LegalReplies t := by
  intro r' hmem
  rw [hreplies, List.mem_append, List.mem_singleton] at hmem
  rcases hmem with hold | rfl
  · exact h r' hold
  · exact hr

/-- Only a Cmd returns a completion code, and that code is at most 4. -/
theorem perform_keeps_legalReplies {e : HostEvent} {s t : State} (h : LegalReplies s) (hperf : perform e s = .next t) :
    LegalReplies t := by
  cases e with
  | regRead a =>
    cases hperf
    obtain ⟨_, _, hreplies⟩ := regRead_replies a s
    exact h.of_append_singleton hreplies rfl
  | regWrite a v =>
    cases hperf
    obtain ⟨_, hreplies⟩ := regWrite_replies a v s
    exact h.of_append_singleton hreplies rfl
  | cmd w =>
    obtain ⟨ws, code, hcode, hrun⟩ := runCmd_cases w s
    cases hrun.symm.trans hperf
    have hreplies : ((s.applyWrites ws).answer (.completion code)).replies = s.replies ++ [.completion code] := by simp
    exact h.of_append_singleton hreplies (decide_eq_true hcode)
  | reset f =>
    cases hperf
    exact h

/-! ## The reply of each transaction (60_exceptions.md R133) -/

/-- The step on a command word writes complex values, if any, and returns one code from 0 to 4. -/
theorem step_cmd {s : State} {w : Word} {rest : List HostEvent} (hp : s.pending = .cmd w :: rest) :
    ∃ ws code, code.toNat ≤ 4 ∧
      step s = .next ((({ s with pending := rest } : State).applyWrites ws).answer (.completion code)) := by
  rw [step_of_pending hp]
  exact runCmd_cases w _

/-- A RegRead is answered ERR exactly past CAP, and never changes P or S (20_memory.md R44, R46). -/
theorem step_regRead {s : State} {a : BitVec 8} {rest : List HostEvent} (hp : s.pending = .regRead a :: rest) :
    ∃ t status word, step s = .next t ∧ t.pending = rest ∧ t.replies = s.replies ++ [.read status word] ∧
      (status = .err ↔ 0x85 ≤ a.toNat) ∧ t.p = s.p ∧ t.s = s.s := by
  by_cases ha : 0x85 ≤ a.toNat
  · exact ⟨_, .err, _, step_regRead_of_unmapped hp (portWord_of_unmapped ha), rfl, rfl, iff_of_true rfl ha, rfl, rfl⟩
  · obtain ⟨word, hword⟩ := portWord_of_mapped s (a := a) (by omega)
    exact ⟨_, .ok, word, step_regRead_of_mapped hp hword, rfl, rfl, iff_of_false nofun ha, rfl, rfl⟩

/-- A RegWrite is answered ERR exactly from CAP on, and then changes neither P nor S (20_memory.md R45, R46). -/
theorem step_regWrite {s : State} {a : BitVec 8} {v : Word} {rest : List HostEvent}
    (hp : s.pending = .regWrite a v :: rest) :
    ∃ t status, step s = .next t ∧ t.pending = rest ∧ t.replies = s.replies ++ [.write status] ∧
      (status = .err ↔ 0x84 ≤ a.toNat) ∧ (status = .err → t.p = s.p ∧ t.s = s.s) := by
  by_cases ha : 0x84 ≤ a.toNat
  · exact ⟨_, .err, step_regWrite_of_refused hp ha, rfl, rfl, iff_of_true rfl ha, fun _ => ⟨rfl, rfl⟩⟩
  · obtain ⟨t, hset⟩ := setPortWord_of_writable { s with pending := rest } (a := a) (by omega) v
    obtain ⟨hpending, hreplies⟩ := setPortWord_port hset
    exact ⟨_, .ok, step_regWrite_of_writable hp hset, hpending, congrArg (· ++ _) hreplies, iff_of_false nofun ha, nofun⟩

end Sys2Proof.Machine

namespace Sys2Proof.Proofs

open Sys2Proof.Machine

/-- Settles O51: an idle step changes nothing, and no event appends a code past 4. -/
theorem stepKeepsLegalReplies : Obligations.StepKeepsLegalReplies := by
  intro s t hlegal hstep
  cases hp : s.pending with
  | nil =>
    cases (step_of_idle hp).symm.trans hstep
    exact hlegal
  | cons e rest =>
    rw [step_of_pending hp] at hstep
    have hlegal' : LegalReplies { s with pending := rest } := hlegal
    exact perform_keeps_legalReplies hlegal' hstep

/-- Settles O47, by the kind of the host's event. -/
theorem repliesAreOfTheirKind : Obligations.RepliesAreOfTheirKind := by
  intro s e rest hp
  cases e with
  | regRead a =>
    obtain ⟨t, status, word, hstep, hpending, hreplies, hstatus, hpacked, hscalars⟩ := step_regRead hp
    refine ⟨t, hstep, hpending, nofun, fun a' ha => ?_, nofun, nofun⟩
    cases ha
    exact ⟨status, word, hreplies, hstatus, hpacked, hscalars⟩
  | regWrite a v =>
    obtain ⟨t, status, hstep, hpending, hreplies, hstatus, hframe⟩ := step_regWrite hp
    refine ⟨t, hstep, hpending, nofun, nofun, fun a' v' ha => ?_, nofun⟩
    cases ha
    exact ⟨status, hreplies, hstatus, hframe⟩
  | cmd w =>
    obtain ⟨ws, code, hcode, hstep⟩ := step_cmd hp
    exact ⟨_, hstep, by simp, fun _ _ => ⟨code, hcode, by simp⟩, nofun, nofun, nofun⟩
  | reset f => exact ⟨_, step_of_pending hp, rfl, nofun, nofun, nofun, fun _ _ => rfl⟩

/-- Settles O48: an idle step stays, and the step on any event answers it. -/
theorem everyStepCompletes : Obligations.EveryStepCompletes := by
  intro s
  cases hp : s.pending with
  | nil => exact ⟨s, step_of_idle hp⟩
  | cons e rest =>
    obtain ⟨t, _, hstep, _⟩ := step_answers hp
    exact ⟨t, hstep⟩

/-- Settles O42: the step is the Cmd transaction, which answers a word that does not decode by the code of its rejection. -/
theorem rejectionWritesNothing : Obligations.RejectionWritesNothing := by
  intro s w rest r hp hdec
  have hstep : step s = .next (({ s with pending := rest } : State).answer (.completion (rejectCode r))) :=
    (step_of_pending hp).trans (runCmd_of_error hdec _)
  rw [hstep]
  cases r <;> rfl

/-- Settles O52: the reset state has returned nothing. -/
theorem resetHasLegalReplies : Obligations.ResetHasLegalReplies :=
  fun _ hmem => absurd hmem List.not_mem_nil

end Sys2Proof.Proofs
end

section
/-! The reset during a run (70_reset_and_hazards.md R150, R151): what a step on it leaves. -/

namespace Sys2Proof.Machine

/-- The step on a reset is the reset pulse, whether or not it abandons a command in flight (70_reset_and_hazards.md R151). -/
theorem step_reset {s : State} {f : Option Word} {rest : List HostEvent} (hp : s.pending = .reset f :: rest) :
    step s = .next (resetPulse { s with pending := rest }) :=
  step_of_pending hp

end Sys2Proof.Machine

namespace Sys2Proof.Proofs

open Sys2Proof.Machine

/-- Settles O54: the reset pulse writes only P, S and the count of free words, and CAP is a constant of the address map. -/
theorem resetAnswersNothing : Obligations.ResetAnswersNothing := by
  intro s f rest hp
  refine ⟨_, step_reset hp, ?pending, ?replies, ?cap⟩
  case pending => exact resetPulse_pending _
  case replies => exact resetPulse_replies _
  case cap => exact portWord_of_cap rfl

end Sys2Proof.Proofs
end
